-- ==== Sys2Proof/Word.lean ====
section
/-! DEFINITION. The word types of the block: bytes, 16-bit fields and the fixed-size byte buffers
(00_scope.md R10, R12; 20_memory.md R40). -/

namespace Sys2Proof

/-- A byte: 8 bits, unsigned (00_scope.md R12). -/
abbrev Byte := BitVec 8

/-- A 16-bit unsigned field: a frequency in MHz or a power in milliwatts (20_memory.md R41). -/
abbrev Half := BitVec 16

/-- A 16-byte buffer: the receive buffer, the transmit buffer, or a frame (00_scope.md R10 FRAME_LEN, R12). -/
abbrev Buffer := Vector Byte 16

/-- The payload of a frame, its bytes 2 to 13 (30_encoding.md R61). -/
abbrev Payload := Vector Byte 12

/-- The part of a SETFREQ payload that no rule reads, frame bytes 4 to 13 (30_encoding.md R65). -/
abbrev PayloadRest := Vector Byte 10

end Sys2Proof
end

