-- ==== Sys2Proof/Config.lean ====
section
/-! DEFINITION. The parameters the spec's model takes as arguments (00_scope.md R11), as plain data, and the two free
values among them. The spec's default values stand in Machine/Codes.lean, where a repair can mend them. -/

namespace Sys2Proof

/-- The offset of a 16-bit field: the lower of one of the pairs (2,3) to (12,13) of the payload (30_encoding.md R61).
A misaligned access "cannot be expressed" (20_memory.md R44), so no other offset has a constructor. -/
inductive HalfOffset where
  | at2
  | at4
  | at6
  | at8
  | at10
  | at12
deriving DecidableEq, Repr

/-- V_REPLY_LAYOUT, the field offsets of the STATUS reply (00_scope.md R11, 30_encoding.md R69).
A 16-bit field stands at an even offset (20_memory.md R44) and a byte field's offset is at most 15, so no field indexes
outside the buffer (R48). -/
structure VReplyLayout where
  /-- Offset of the 16-bit frequency. -/
  freq : HalfOffset
  /-- Offset of the 16-bit "set power". -/
  setPower : HalfOffset
  /-- Offset of the lock flag. -/
  lock : Fin 16
  /-- Offset of the pit-mode flag. -/
  pit : Fin 16
  /-- Offset of the 16-bit "actual power". -/
  actualPower : HalfOffset
deriving DecidableEq, Repr

/-- The parameters of 00_scope.md R11, one field each.  No rule writes them (10_state.md R29). -/
structure Params where
  /-- CODE_FILTER_ENABLED. -/
  codeFilterEnabled : Bool
  /-- CODE_FILTER_SET, a set of bytes as a list without repeats. -/
  codeFilterSet : List Byte
  /-- CHANNEL_TABLE, frequencies in MHz. -/
  channelTable : Vector Half 10
  /-- FREQ_SENTINEL. -/
  freqSentinel : Half
  /-- POWER_TABLE, powers in milliwatts. -/
  powerTable : Vector Half 2
  /-- POWER_DEFAULT. -/
  powerDefault : Half
  /-- V_REPLY_LAYOUT. -/
  vReplyLayout : VReplyLayout
  /-- S_ACK_PAYLOAD. -/
  sAckPayload : Payload
  /-- DRAIN_DELAY.  The spec gives it no unit and no rule depends on it (R11, 43_reply_transmit.md R134). -/
  drainDelay : Nat
deriving DecidableEq, Repr

/-- FREE VALUE (log 11): S_ACK_PAYLOAD of the machine after reset.  The spec leaves it open with no default and says
"Do not assume any value. In particular, do not assume zeros." (91_not_in_source.md; 30_encoding.md R70). -/
opaque Config.sAckPayload : Payload

/-- FREE VALUE (log 11): DRAIN_DELAY of the machine after reset, open in the spec (43_reply_transmit.md R134). -/
opaque Config.drainDelay : Nat

end Sys2Proof
end

