-- ==== Sys2Proof/Machine/Codes.lean ====
section
/-! DEFINITION. The fixed byte values and constants of the protocol (00_scope.md R10, 30_encoding.md R63) and the
spec's default parameters (00_scope.md R11). -/

namespace Sys2Proof.Machine

/-- HEADER (00_scope.md R10). -/
def headerByte : Byte := 0x0F

/-- TRAILER (00_scope.md R10). -/
def trailerByte : Byte := 0x00

/-- The value every reply byte has that no rule names (30_encoding.md R67; the spec's decision D9, log 13). -/
def fillByte : Byte := 0x00

/-- 'r' (30_encoding.md R63; ASCII is the spec's decision D7, log 12). -/
def codeRange : Byte := 0x72

/-- 'v' (30_encoding.md R63; D7, log 12). -/
def codeStatus : Byte := 0x76

/-- 'F' (30_encoding.md R63; D7, log 12). -/
def codeSetFreq : Byte := 0x46

/-- 's' (30_encoding.md R63; D7, log 12). -/
def codeSetPower : Byte := 0x73

/-- R_MIN_FREQ in MHz (00_scope.md R10). -/
def rMinFreq : Half := 5658

/-- R_MAX_FREQ in MHz (00_scope.md R10). -/
def rMaxFreq : Half := 5917

/-- R_MAX_POWER in milliwatts (00_scope.md R10). -/
def rMaxPower : Half := 200

/-- The lock flag of the STATUS reply: always unlocked (30_encoding.md R69; the byte is decision D11, log 13). -/
def lockFlag : Byte := 0x00

/-- The pit-mode flag of the STATUS reply: always off (30_encoding.md R69; the byte is decision D11, log 13). -/
def pitFlag : Byte := 0x00

/-- The lower byte offset of a 16-bit field (20_memory.md R44, 30_encoding.md R61). -/
def halfOffset : HalfOffset → Fin 15
  | .at2 => 2
  | .at4 => 4
  | .at6 => 6
  | .at8 => 8
  | .at10 => 10
  | .at12 => 12

/-- The default V_REPLY_LAYOUT (30_encoding.md R69; decision D10, log 10). -/
def defaultLayout : VReplyLayout :=
  { freq := .at2, setPower := .at4, lock := 6, pit := 7, actualPower := .at8 }

/-- The parameters after reset: the defaults of 00_scope.md R11 (logs 8, 9), and the free values of Config where R11
says OPEN (log 11). -/
def defaultParams : Params :=
  { codeFilterEnabled := false
    codeFilterSet := [codeRange, codeStatus, codeSetFreq, codeSetPower]
    channelTable := #v[5658, 5695, 5732, 5769, 5806, 5843, 5880, 5917, 5760, 5800]
    freqSentinel := 0x0000
    powerTable := #v[25, 200]
    powerDefault := 25
    vReplyLayout := defaultLayout
    sAckPayload := Config.sAckPayload
    drainDelay := Config.drainDelay }

end Sys2Proof.Machine
end

