-- ==== Sys2Proof/Machine/Flags.lean ====
section
/-! DEFINITION. The conditions the block computes from a buffer: the checksum and frame validity (41_checksum.md R100,
R101).  The block has no stored condition flag (10_state.md R28). -/

namespace Sys2Proof.Machine

/-- The offsets CSUM_FIRST..CSUM_LAST the checksum sums, 1 to 13 (00_scope.md R10, 41_checksum.md R100). -/
def csumOffsets : List (Fin 16) := [1, 2, 3, 4, 5, 6, 7, 8, 9, 10, 11, 12, 13]

/-- CHECKSUM: the 8-bit wraparound sum of bytes 1 to 13 (41_checksum.md R100). -/
def checksum (f : Buffer) : Byte :=
  csumOffsets.foldl (fun acc i => acc + f[i]) 0x00

/-- IS_VALID: byte 14 equals the checksum and byte 15 is 0; byte 0 is not read (41_checksum.md R101). -/
def isValid (f : Buffer) : Bool :=
  f[14] == checksum f && f[15] == trailerByte

end Sys2Proof.Machine
end

