-- ==== Sys2Proof/Machine/Operands.lean ====
section
/-! DEFINITION. Operand access: 16-bit little-endian fields of a buffer (20_memory.md R43), the layouts of frames and
replies (30_encoding.md R61, R68 to R70) and the table lookups (42_dispatch.md R114, R115, R117). -/

namespace Sys2Proof.Machine

/-- `le16(lo, hi)` (00_scope.md R16). -/
def le16 (lo hi : Byte) : Half := lo.setWidth 16 ||| (hi.setWidth 16 <<< 8)

/-- `v[7:0]` (00_scope.md R12). -/
def loByte (v : Half) : Byte := v.extractLsb' 0 8

/-- `v[15:8]` (00_scope.md R12). -/
def hiByte (v : Half) : Byte := v.extractLsb' 8 8

/-- `MemRead(buf, off, 1)` (20_memory.md R43). -/
def memRead1 (buf : Buffer) (off : Fin 16) : Byte := buf[off]

/-- `MemRead(buf, off, 2)`, little-endian, at an aligned offset (20_memory.md R43, R44). -/
def memRead2 (buf : Buffer) (off : HalfOffset) : Half :=
  le16 (memRead1 buf (halfOffset off).castSucc) (memRead1 buf (halfOffset off).succ)

/-- `MemWrite(buf, off, 1, v)` (20_memory.md R43). -/
def memWrite1 (buf : Buffer) (off : Fin 16) (v : Byte) : Buffer := buf.set off.val v

/-- `MemWrite(buf, off, 2, v)`, little-endian, at an aligned offset (20_memory.md R43, R44). -/
def memWrite2 (buf : Buffer) (off : HalfOffset) (v : Half) : Buffer :=
  memWrite1 (memWrite1 buf (halfOffset off).castSucc (loByte v)) (halfOffset off).succ (hiByte v)

/-- The append's store `buf[cursor] <- b`; the cursor is 4 bits, so the index is 0..15 (40_receiver.md R81). -/
def putAt (buf : Buffer) (cursor : BitVec 4) (b : Byte) : Buffer := buf.set cursor.toNat b cursor.isLt

/-- The advanced cursor `zext_5(cursor) + 1`, in 5 bits (10_state.md R22, 40_receiver.md R81). -/
def nextCursor (cursor : BitVec 4) : BitVec 5 := cursor.setWidth 5 + 1

/-- `next[3:0]`, the advanced cursor as it is stored (40_receiver.md R81). -/
def storedCursor (next : BitVec 5) : BitVec 4 := next.setWidth 4

/-- Whether the code filter accepts a code byte (40_receiver.md R84, R85). -/
def codeAccepted (p : Params) (b : Byte) : Bool :=
  !p.codeFilterEnabled || p.codeFilterSet.contains b

/-- `ChanFreq(i)`, the forward channel lookup (42_dispatch.md R114). -/
def chanFreq (p : Params) (i : Byte) : Half :=
  if h : i.toNat < 10 then p.channelTable[i.toNat] else p.freqSentinel

/-- `PowVal(i)`, the power lookup (42_dispatch.md R115). -/
def powVal (p : Params) (i : Byte) : Half :=
  if h : i.toNat < 2 then p.powerTable[i.toNat] else p.powerDefault

/-- `ChanIndex(v)`, the reverse channel lookup: the least index whose entry equals `v` exactly (42_dispatch.md R117;
the tie-break is decision D16, log 26). -/
def chanIndex (p : Params) (v : Half) : Option Byte :=
  (p.channelTable.toList.findIdx? (· == v)).map (BitVec.ofNat 8)

/-- FINALIZE: the checksum and the trailer of a prepared frame (41_checksum.md R104). -/
def finalizeBuffer (f : Buffer) : Buffer :=
  memWrite1 (memWrite1 f 14 (checksum f)) 15 trailerByte

/-- REPLY_START: every byte overwritten, then the header and the code (42_dispatch.md R111; the fill value is decision
D9, log 13). -/
def replyStart (code : Byte) : Buffer :=
  memWrite1 (memWrite1 (Vector.replicate 16 fillByte) 0 headerByte) 1 code

/-- A frame's header, code and payload in place, checksum and trailer not yet set (30_encoding.md R61; the SETPOWER
arm's payload loop over REPLY_START, 42_dispatch.md R118). -/
def frameBody (code : Byte) (p : Payload) : Buffer :=
  #v[headerByte, code, p[0], p[1], p[2], p[3], p[4], p[5], p[6], p[7], p[8], p[9], p[10], p[11], fillByte, fillByte]

/-- The RANGE reply before FINALIZE (42_dispatch.md R112, 30_encoding.md R68). -/
def rangeBody : Buffer :=
  memWrite2 (memWrite2 (memWrite2 (replyStart codeRange) .at2 rMinFreq) .at4 rMaxFreq) .at6 rMaxPower

/-- The STATUS reply before FINALIZE, the fields where the layout puts them, in the order R113 writes them
(42_dispatch.md R113, 30_encoding.md R69). -/
def statusBody (l : VReplyLayout) (freq pwr : Half) : Buffer :=
  let b1 := memWrite2 (replyStart codeStatus) l.freq freq
  let b2 := memWrite2 b1 l.setPower pwr
  let b3 := memWrite1 b2 l.lock lockFlag
  let b4 := memWrite1 b3 l.pit pitFlag
  memWrite2 b4 l.actualPower pwr

/-- The SETPOWER reply before FINALIZE (42_dispatch.md R118, 30_encoding.md R70). -/
def setPowerBody (ack : Payload) : Buffer := frameBody codeSetPower ack

end Sys2Proof.Machine
end

