-- ==== Sys2Proof/Syntax.lean ====
section
/-! DEFINITION. The instruction set: one constructor per row of opcode_table.json (30_encoding.md R63, R72).
The payload bytes of a frame that no arm reads are kept verbatim, so that no bit of an encoding is dropped (log 17). -/

namespace Sys2Proof

/-- The rows of opcode_table.json, by name. -/
inductive Opcode where
  | range
  | status
  | setFreq
  | setPower
  | other
deriving DecidableEq, Repr

/-- A validated command frame (30_encoding.md R63, R65, R66). -/
inductive Instr where
  /-- RANGE ('r'): the range query.  The payload is not read (R66). -/
  | range (payload : Payload)
  /-- STATUS ('v'): the status query.  The payload is not read (R66). -/
  | status (payload : Payload)
  /-- SETFREQ ('F'): set the frequency to `freq` MHz.  The rest of the payload is ignored (R65). -/
  | setFreq (freq : Half) (rest : PayloadRest)
  /-- SETPOWER ('s'): the set-power stub.  The payload is not read (R66). -/
  | setPower (payload : Payload)
  /-- Any other command code: a no-op (R64). -/
  | other (code : Byte) (payload : Payload)
deriving DecidableEq, Repr

end Sys2Proof
end

