-- ==== Sys2Proof/WellFormed.lean ====
section
/-! DEFINITION. Which instructions are well formed (30_encoding.md R63, R64), and which parameters meet the constraints
the spec puts on them (00_scope.md R11). -/

namespace Sys2Proof

open Sys2Proof.Machine

/-- The four command codes (30_encoding.md R63). -/
def commandCodes : List Byte := [codeRange, codeStatus, codeSetFreq, codeSetPower]

/-- An instruction is well formed when its OTHER code is not one of the four command codes: the OTHER row applies only
where no earlier row matches (30_encoding.md R72). -/
def Instr.wf : Instr → Bool
  | .range _ => true
  | .status _ => true
  | .setFreq _ _ => true
  | .setPower _ => true
  | .other code _ => !commandCodes.contains code

/-- The buffer offsets a STATUS reply's fields occupy, field by field (30_encoding.md R69). -/
def VReplyLayout.offsets (l : VReplyLayout) : List Nat :=
  [(halfOffset l.freq).val, (halfOffset l.freq).val + 1, (halfOffset l.setPower).val, (halfOffset l.setPower).val + 1, l.lock.val, l.pit.val,
    (halfOffset l.actualPower).val, (halfOffset l.actualPower).val + 1]

/-- A layout places its fields inside the payload, offsets 2 to 13, without overlap (30_encoding.md R61). -/
def VReplyLayout.wf (l : VReplyLayout) : Bool :=
  l.offsets.all (fun off => 2 ≤ off && off ≤ 13) && decide l.offsets.Nodup

/-- The constraints of 00_scope.md R11 on the parameters: channel 2 is 5732 MHz, 6000 MHz is in no entry, the filter set
is a set, and the STATUS fields lie in the payload. -/
def Params.wf (p : Params) : Bool :=
  p.channelTable[2] == 5732 && !p.channelTable.toList.contains 6000 && decide p.codeFilterSet.Nodup
    && p.vReplyLayout.wf

/-- The channel table is "a bidirectional mapping" (20_memory.md R40, 42_dispatch.md R117): no entry repeats. -/
def Params.bidirectional (p : Params) : Bool := decide p.channelTable.toList.Nodup

end Sys2Proof
end

