-- ==== Sys2Proof/Decode.lean ====
section
/-! DEFINITION. Decoding a 16-byte frame into an instruction, total on any bytes and refusing by name; the encoder, from
the same table; and the host's table word (30_encoding.md R60 to R72, opcode_table.json). -/

namespace Sys2Proof

open Sys2Proof.Machine

/-- Why bytes are not a command frame (log 25). -/
inductive DecodeError where
  /-- Not 16 bytes (30_encoding.md R60). -/
  | wrongLength
  /-- Byte 14 is not the checksum (41_checksum.md R101). -/
  | badChecksum
  /-- Byte 15 is not 0 (41_checksum.md R101). -/
  | badTrailer
deriving DecidableEq, Repr

/-- One row of opcode_table.json: mask and pattern over frame byte 1 (30_encoding.md R72). -/
structure OpcodeRow where
  mask : Byte
  pattern : Byte
  op : Opcode
deriving DecidableEq, Repr

/-- opcode_table.json, in its own order; the last row matches every byte and has the lowest priority (R72). -/
def opcodeTable : List OpcodeRow :=
  [ ⟨0xFF, 0x72, .range⟩,
    ⟨0xFF, 0x76, .status⟩,
    ⟨0xFF, 0x46, .setFreq⟩,
    ⟨0xFF, 0x73, .setPower⟩,
    ⟨0x00, 0x00, .other⟩ ]

/-- The first row whose `(rxbuf[1] & mask) == match` (30_encoding.md R72). -/
def selectOpcode (code : Byte) : Opcode :=
  match opcodeTable.find? (fun row => code &&& row.mask == row.pattern) with
  | some row => row.op
  | none => .other

/-- Frame bytes 2 to 13 (30_encoding.md R61). -/
def payloadOf (f : Buffer) : Payload :=
  #v[f[2], f[3], f[4], f[5], f[6], f[7], f[8], f[9], f[10], f[11], f[12], f[13]]

/-- Frame bytes 4 to 13 (30_encoding.md R65). -/
def payloadRestOf (f : Buffer) : PayloadRest :=
  #v[f[4], f[5], f[6], f[7], f[8], f[9], f[10], f[11], f[12], f[13]]

/-- The instruction of a valid frame, by its command byte (30_encoding.md R63, R65, R72). -/
def instrOf (f : Buffer) : Instr :=
  match selectOpcode f[1] with
  | .range => .range (payloadOf f)
  | .status => .status (payloadOf f)
  | .setFreq => .setFreq (memRead2 f .at2) (payloadRestOf f)
  | .setPower => .setPower (payloadOf f)
  | .other => .other f[1] (payloadOf f)

/-- Decode a frame: only a valid one is an instruction (42_dispatch.md R110, 41_checksum.md R101). -/
def decodeFrame (f : Buffer) : Except DecodeError Instr :=
  if isValid f then .ok (instrOf f)
  else if f[14] == checksum f then .error .badTrailer
  else .error .badChecksum

/-- Decode any bytes: a frame is exactly 16 of them (30_encoding.md R60). -/
def decode (bytes : List Byte) : Except DecodeError Instr :=
  if h : bytes.length = 16 then decodeFrame ⟨bytes.toArray, by simpa using h⟩
  else .error .wrongLength

/-- `FRAME(c; payload)`: header, code, payload, checksum, trailer (30_encoding.md R61, R73). -/
def frame (code : Byte) (p : Payload) : Buffer := finalizeBuffer (frameBody code p)

/-- The payload of a SETFREQ frame: the frequency little-endian at offsets 2 and 3, then the rest (30_encoding.md R65). -/
def setFreqPayload (freq : Half) (r : PayloadRest) : Payload :=
  #v[loByte freq, hiByte freq, r[0], r[1], r[2], r[3], r[4], r[5], r[6], r[7], r[8], r[9]]

/-- The frame of an instruction (30_encoding.md R61, R63, R65). -/
def encode : Instr → Buffer
  | .range p => frame codeRange p
  | .status p => frame codeStatus p
  | .setFreq freq rest => frame codeSetFreq (setFreqPayload freq rest)
  | .setPower p => frame codeSetPower p
  | .other code p => frame code p

/-- Byte `k` of the table's word, whose bits above `nbits` are 0. -/
def tableByte (nbits w k : Nat) : Byte := BitVec.ofNat 8 ((w % 2 ^ nbits) >>> (8 * k))

/-- The frame of a table word.  opcode_table.json numbers the bits of an instruction from frame byte 1 (its CMD is
"frame byte 1 (bits 7:0)"), so byte `k` of the word is frame byte `k + 1`; header, checksum and trailer are the frame's
own (log 27). -/
def frameOfWord (nbits w : Nat) : Buffer :=
  frame (tableByte nbits w 0)
    #v[tableByte nbits w 1, tableByte nbits w 2, tableByte nbits w 3, tableByte nbits w 4,
      tableByte nbits w 5, tableByte nbits w 6, tableByte nbits w 7, tableByte nbits w 8,
      tableByte nbits w 9, tableByte nbits w 10, tableByte nbits w 11, tableByte nbits w 12]

/-- The instruction the decoder reads from a table word's frame, given to it as the bytes in wire order
(20_memory.md R42). -/
def decodeTableWord (nbits w : Nat) : Option Instr :=
  match decode (frameOfWord nbits w).toList with
  | .ok i => some i
  | .error _ => none

end Sys2Proof
end

