-- ==== Sys2Proof/Machine/State.lean ====
section
/-! DEFINITION. The state of the block and of the parts of its environment it touches, as plain data (10_state.md R20,
R34; 00_scope.md R9, R14), the outcomes of a step, and the state after reset (10_state.md R32, 70_reset_and_hazards.md R160). -/

namespace Sys2Proof.Machine

/-- The receiver state register: two bits, three named states and the illegal encoding (10_state.md R21; log 19). -/
inductive RxState where
  /-- AH, 0b00: hunting for the header. -/
  | awaitingHeader
  /-- AC, 0b01: header seen, the next byte is the command code. -/
  | awaitingCode
  /-- AD, 0b10: storing bytes 2 to 15. -/
  | accumulatingData
  /-- 0b11: reached only by corruption. -/
  | illegal
deriving DecidableEq, Repr

/-- The diagnostic events an arm or a receiver class emits (60_exceptions.md R142; log 21). -/
inductive DiagEvent where
  | framingLoss
  | frameDiscarded
  | cmdProcessed
  | cmdIgnored
  | codeRejected
  | recovered
deriving DecidableEq, Repr

/-- One event of the ordered effect trace: the primitives of 00_scope.md R14, and the two pulses of 10_state.md R31 that
R14 does not list, the `busy` level's changes and the configuration store's write enable (log 3). -/
inductive Event where
  /-- `Avail()` and its answer. -/
  | avail (ready : Bool)
  /-- `ReadByte()` and the byte popped. -/
  | readByte (b : Byte)
  /-- `WriteByte(b)`. -/
  | writeByte (b : Byte)
  /-- `ApplyChannel(i)`. -/
  | applyChannel (i : Byte)
  /-- `Delay()`, of DRAIN_DELAY. -/
  | delay (duration : Nat)
  /-- `Diag(e, x)`. -/
  | diag (e : DiagEvent) (x : Byte)
  /-- `busy <- v`, seen on port `busy`. -/
  | busy (v : Bool)
  /-- `cfg_channel <- i`, seen on ports `cfg_channel_out` and `cfg_channel_we`. -/
  | cfgChannel (i : Byte)
deriving DecidableEq, Repr

/-- One move of the environment (00_scope.md R9, 60_exceptions.md R147; log 2). -/
inductive EnvMove where
  /-- A byte arrives in the receive FIFO. -/
  | arrive (b : Byte)
  /-- The invoker requests a receive pass. -/
  | passReq
  /-- The configuration store's owner writes `cfg_channel`. -/
  | cfgChannel (v : Byte)
  /-- The configuration store's owner writes `cfg_power`. -/
  | cfgPower (v : Byte)
  /-- The environment's turn ends: the block goes on. -/
  | yield
deriving DecidableEq, Repr

/-- The whole state (10_state.md R20, R34; INVENTORY.md lists each field's rule and reset value). -/
structure State where
  /-- `state` (R21). -/
  rxState : RxState
  /-- `cursor`, 4 bits (R22). -/
  cursor : BitVec 4
  /-- `rxbuf[0..15]` (R23). -/
  rxbuf : Buffer
  /-- `txbuf[0..15]` (R24). -/
  txbuf : Buffer
  /-- `busy` (R25). -/
  busy : Bool
  /-- Whether a receive pass is running (40_receiver.md R92; log 4). -/
  passRunning : Bool
  /-- `cfg_channel` of the configuration store (R26). -/
  cfgChannel : Byte
  /-- `cfg_power` of the configuration store (R27). -/
  cfgPower : Byte
  /-- The constants (R20's last row, R29; log 8). -/
  params : Params
  /-- The transport's receive FIFO, oldest byte first (R34). -/
  rxFifo : List Byte
  /-- The ordered effect trace, oldest event first (00_scope.md R14; log 3). -/
  trace : List Event
  /-- THE MODEL'S OWN FIELD: the environment's coming moves, in order (00_scope.md R9, D3; log 2). -/
  script : List EnvMove
deriving DecidableEq, Repr

/-- Why the machine stops: a duty of the environment is broken (60_exceptions.md R148; log 24).  Safe: the spec gives no
behaviour there, and the model gives the step no value.  The block itself has no fault (R140). -/
inductive Fault where
  /-- Raised by `readByte` on an empty FIFO (R148).  Safe. -/
  | readEmptyFifo
  /-- Raised by the environment's turn when the store is written during a pass (R148).  Safe. -/
  | cfgWriteDuringPass
  /-- Raised by the environment's turn when a pass is requested while one runs (R148).  Safe. -/
  | passOverlap
deriving DecidableEq, Repr

/-- Why the machine refuses an instruction. -/
inductive Refusal where
  /-- Raised by an arm of `exec` that has no meaning yet; no arm is so.  Safe. -/
  | notModelled (mnemonic : String)
deriving DecidableEq, Repr

/-- The outcome of a step or of a shared operation. -/
abbrev Result := Host.Outcome State Fault Refusal

/-- The machine right after reset (10_state.md R32, 70_reset_and_hazards.md R160).  The spec states `state`, `cursor`,
`busy`, the empty FIFO and the constants; the buffers (log 5) and the configuration store (log 6) are the model's choice,
and no statement rests on them. -/
def State.reset : State :=
  { rxState := .awaitingHeader
    cursor := 0
    rxbuf := Vector.replicate 16 0x00
    txbuf := Vector.replicate 16 0x00
    busy := false
    passRunning := false
    cfgChannel := 0
    cfgPower := 0
    params := defaultParams
    rxFifo := []
    trace := []
    script := [] }

end Sys2Proof.Machine
end

