-- ==== Sys2Proof/Machine/Ops.lean ====
section
/-! DEFINITION. The shared operations: the environment's turn (00_scope.md R9), the primitives of 00_scope.md R14, the
resynchronisation that stands where another machine takes an exception (60_exceptions.md R145), and the transmit sequence
(43_reply_transmit.md R138). -/

namespace Sys2Proof.Machine

/-- Go on from a next state; a fault or a refusal stops. -/
def andThen (r : Result) (k : State → Result) : Result :=
  match r with
  | .next s => k s
  | .fault f => .fault f
  | .refused f => .refused f

/-- One turn of the environment while a pass runs: the bytes that arrive and the moves left after it.  Arrivals are a
liberty; a store write or a pass request breaks a duty (60_exceptions.md R147, R148; log 24).  A script that is used up
makes no more moves. -/
def takeTurn : List EnvMove → Except Fault (List Byte × List EnvMove)
  | [] => .ok ([], [])
  | .yield :: moves => .ok ([], moves)
  | .arrive b :: moves =>
    match takeTurn moves with
    | .ok (bytes, rest) => .ok (b :: bytes, rest)
    | .error f => .error f
  | .passReq :: _ => .error .passOverlap
  | .cfgChannel _ :: _ => .error .cfgWriteDuringPass
  | .cfgPower _ :: _ => .error .cfgWriteDuringPass

/-- `n` turns in a row: the bytes that arrive in them, in order, and the moves left. -/
def takeTurns : Nat → List EnvMove → Except Fault (List Byte × List EnvMove)
  | 0, moves => .ok ([], moves)
  | n + 1, moves =>
    match takeTurn moves with
    | .error f => .error f
    | .ok (bytes, rest) =>
      match takeTurns n rest with
      | .error f => .error f
      | .ok (more, rest') => .ok (bytes ++ more, rest')

/-- Arriving bytes are appended to the receive FIFO in arrival order (60_exceptions.md R147); `rest` are the moves left. -/
def arrived (bytes : List Byte) (rest : List EnvMove) (s : State) : State :=
  { s with rxFifo := s.rxFifo ++ bytes, script := rest }

/-- The environment's turn before a primitive of the block (00_scope.md R9; log 2). -/
def envTurn (s : State) : Result :=
  match takeTurn s.script with
  | .ok (bytes, rest) => .next (arrived bytes rest s)
  | .error f => .fault f

/-- Append an event to the effect trace (00_scope.md R14). -/
def emit (e : Event) (s : State) : State := { s with trace := s.trace ++ [e] }

/-- The receive FIFO after a pop (20_memory.md R46). -/
def setFifo (fifo : List Byte) (s : State) : State := { s with rxFifo := fifo }

/-- `Avail()`: true exactly when the receive FIFO is non-empty; no side effect (00_scope.md R14, 20_memory.md R46). -/
def avail (s : State) (k : Bool → State → Result) : Result :=
  andThen (envTurn s) fun s => k (!s.rxFifo.isEmpty) (emit (.avail (!s.rxFifo.isEmpty)) s)

/-- `ReadByte()`: pops the oldest byte of the receive FIFO (00_scope.md R14, 20_memory.md R46).  On an empty FIFO a duty
is broken (60_exceptions.md R148). -/
def readByte (s : State) (k : Byte → State → Result) : Result :=
  andThen (envTurn s) fun s =>
    match s.rxFifo with
    | [] => .fault .readEmptyFifo
    | b :: rest => k b (emit (.readByte b) (setFifo rest s))

/-- `WriteByte(b)` (00_scope.md R14). -/
def writeByte (b : Byte) (s : State) : Result :=
  andThen (envTurn s) fun s => .next (emit (.writeByte b) s)

/-- `ApplyChannel(i)` (00_scope.md R14). -/
def applyChannel (i : Byte) (s : State) : Result :=
  andThen (envTurn s) fun s => .next (emit (.applyChannel i) s)

/-- `Delay()`: one effect, of the constant DRAIN_DELAY (00_scope.md R14, 43_reply_transmit.md R134; log 14). -/
def delay (s : State) : Result :=
  andThen (envTurn s) fun s => .next (emit (.delay s.params.drainDelay) s)

/-- `Diag(e, x)` (00_scope.md R14, 60_exceptions.md R142). -/
def diag (e : DiagEvent) (x : Byte) (s : State) : Result :=
  andThen (envTurn s) fun s => .next (emit (.diag e x) s)

/-- `busy <- v` (43_reply_transmit.md R132, R135). -/
def setBusy (v : Bool) (s : State) : State := emit (.busy v) { s with busy := v }

/-- `cfg_channel <- i`, the one write of the configuration store (42_dispatch.md R116, R121). -/
def writeCfgChannel (i : Byte) (s : State) : State := emit (.cfgChannel i) { s with cfgChannel := i }

/-- A resynchronisation: `state <- AH; cursor <- 0`, and nothing else (60_exceptions.md R145,
70_reset_and_hazards.md R161). -/
def resync (s : State) : State := { s with rxState := .awaitingHeader, cursor := 0 }

/-- The append of every step: `rxbuf[cursor] <- b` (40_receiver.md R81). -/
def appendByte (b : Byte) (s : State) : State := { s with rxbuf := putAt s.rxbuf s.cursor b }

/-- Move the receiver to a state and a stored cursor (40_receiver.md R82, R84, R86). -/
def goTo (r : RxState) (next : BitVec 5) (s : State) : State :=
  { s with rxState := r, cursor := storedCursor next }

/-- The transmit buffer as an arm prepares it: all 16 bytes overwritten (42_dispatch.md R111). -/
def loadTx (body : Buffer) (s : State) : State := { s with txbuf := body }

/-- FINALIZE on the transmit buffer (41_checksum.md R104). -/
def finalize (s : State) : State := { s with txbuf := finalizeBuffer s.txbuf }

/-- `WriteByte` of each byte in order (43_reply_transmit.md R133). -/
def writeBytes : List Byte → State → Result
  | [], s => .next s
  | b :: bs, s => andThen (writeByte b s) (writeBytes bs)

/-- DRAIN READ: one read attempt, its byte discarded (43_reply_transmit.md R136; log 20). -/
def drainRead (s : State) : Result :=
  avail s fun ready s => if ready then readByte s (fun _ s => .next s) else .next s

/-- TRANSMIT (43_reply_transmit.md R138). -/
def transmit (s : State) : Result :=
  let s := setBusy true (finalize s)
  andThen (writeBytes s.txbuf.toList s) fun s =>
    andThen (delay s) fun s =>
      drainRead (setBusy false s)

/-- A reply arm: the prepared buffer is transmitted, then the command's result is signalled
(42_dispatch.md R112, R113, R118, R120). -/
def reply (code : Byte) (body : Buffer) (s : State) : Result :=
  andThen (transmit (loadTx body s)) (diag .cmdProcessed code)

/-- The pass returns (40_receiver.md R92). -/
def endPass (s : State) : State := { s with passRunning := false }

/-- One move of the environment between passes, where every move is a liberty (60_exceptions.md R147). -/
def applyIdleMove (m : EnvMove) (s : State) : State :=
  match m with
  | .arrive b => setFifo (s.rxFifo ++ [b]) s
  | .passReq => { s with passRunning := true }
  | .cfgChannel v => { s with cfgChannel := v }
  | .cfgPower v => { s with cfgPower := v }
  | .yield => s

/-- A step of the machine between passes: the environment's next move; with none left the block stays quiescent
(70_reset_and_hazards.md R169; log 1). -/
def idleStep (s : State) : Result :=
  match s.script with
  | [] => .next s
  | m :: rest => .next (applyIdleMove m { s with script := rest })

end Sys2Proof.Machine
end

