-- ==== Sys2Proof/Machine/Control.lean ====
section
/-! DEFINITION. The two control arms, SETFREQ and SETPOWER (42_dispatch.md R116, R118). -/

namespace Sys2Proof.Machine

/-- SETFREQ: on an exact match write `cfg_channel` and call the driver, else nothing; signalled as processed either way
(42_dispatch.md R116, R120). -/
def execSetFreq (freq : Half) (_rest : PayloadRest) (s : State) : Result :=
  match chanIndex s.params freq with
  | some i => andThen (applyChannel i (writeCfgChannel i s)) (diag .cmdProcessed codeSetFreq)
  | none => diag .cmdProcessed codeSetFreq s

/-- SETPOWER: the fixed acknowledgement; the configuration is not written (42_dispatch.md R118). -/
def execSetPower (_payload : Payload) (s : State) : Result :=
  reply codeSetPower (setPowerBody s.params.sAckPayload) s

end Sys2Proof.Machine
end

