-- ==== Sys2Proof/Machine/NoOp.lean ====
section
/-! DEFINITION. The arm of every other command code (42_dispatch.md R119). -/

namespace Sys2Proof.Machine

/-- OTHER: no effect but the diagnostic (42_dispatch.md R119). -/
def execOther (code : Byte) (_payload : Payload) (s : State) : Result := diag .cmdIgnored code s

end Sys2Proof.Machine
end

