-- ==== Sys2Proof/Machine/Query.lean ====
section
/-! DEFINITION. The two query arms, RANGE and STATUS (42_dispatch.md R112, R113). -/

namespace Sys2Proof.Machine

/-- RANGE: reply with the fixed capability bounds; neither the payload nor the configuration is read
(42_dispatch.md R112). -/
def execRange (_payload : Payload) (s : State) : Result := reply codeRange rangeBody s

/-- STATUS: reply with the current frequency and power, looked up at this moment (42_dispatch.md R113). -/
def execStatus (_payload : Payload) (s : State) : Result :=
  reply codeStatus
    (statusBody s.params.vReplyLayout (chanFreq s.params s.cfgChannel) (powVal s.params s.cfgPower)) s

end Sys2Proof.Machine
end

