-- ==== Sys2Proof/Machine/Dispatch.lean ====
section
/-! DEFINITION. DISPATCH: the meaning of an instruction, one arm per constructor (42_dispatch.md R110). -/

namespace Sys2Proof.Machine

def exec (i : Instr) (s : State) : Host.Outcome State Fault Refusal :=
  match i with
  | .range payload => Sys2Proof.Machine.execRange payload s
  | .status payload => Sys2Proof.Machine.execStatus payload s
  | .setFreq freq rest => Sys2Proof.Machine.execSetFreq freq rest s
  | .setPower payload => Sys2Proof.Machine.execSetPower payload s
  | .other code payload => Sys2Proof.Machine.execOther code payload s

end Sys2Proof.Machine
end

