-- ==== Sys2Proof/Machine/Receiver.lean ====
section
/-! DEFINITION. The frame receiver: one definition per byte class (40_receiver.md R82 to R89), the receiver step (R90),
one iteration of the receive pass (R92), and the loading of a frame for the host's fetch. -/

namespace Sys2Proof.Machine

/-- HEADER (40_receiver.md R82). -/
def onHeader (next : BitVec 5) (s : State) : Result := .next (goTo .awaitingCode next s)

/-- NOISE (40_receiver.md R83). -/
def onNoise (b : Byte) (s : State) : Result := diag .framingLoss b (resync s)

/-- CODE (40_receiver.md R84). -/
def onCode (next : BitVec 5) (s : State) : Result := .next (goTo .accumulatingData next s)

/-- CODE_REJECTED (40_receiver.md R85; decision D8, log 22). -/
def onCodeRejected (b : Byte) (s : State) : Result := diag .codeRejected b (resync s)

/-- DATA (40_receiver.md R86). -/
def onData (next : BitVec 5) (s : State) : Result := .next (goTo s.rxState next s)

/-- What a completed frame does before the receiver resynchronises: a valid one is dispatched, an invalid one discarded
(40_receiver.md R87, 42_dispatch.md R110). -/
def completeFrame (s : State) : Result :=
  match decodeFrame s.rxbuf with
  | .ok i => exec i s
  | .error _ => diag .frameDiscarded s.rxbuf[1] s

/-- LAST: the completed frame, then the unconditional resynchronisation (40_receiver.md R87). -/
def onLast (s : State) : Result := andThen (completeFrame s) fun s => .next (resync s)

/-- RECOVER_STATE (40_receiver.md R88; decision D28, log 23). -/
def onIllegalState (b : Byte) (s : State) : Result := diag .recovered b (resync s)

/-- RECOVER_OVERFLOW (40_receiver.md R89; decision D6, log 23). -/
def onOverflow (b : Byte) (s : State) : Result := diag .recovered b (resync s)

/-- The classification of an appended byte, in the order of tests of 40_receiver.md R90. -/
def classify (b : Byte) (next : BitVec 5) (s : State) : Result :=
  match s.rxState with
  | .awaitingHeader =>
    if b ≠ headerByte then onNoise b s
    else if next = 16 then onOverflow b s
    else onHeader next s
  | .awaitingCode =>
    if codeAccepted s.params b = false then onCodeRejected b s
    else if next = 16 then onOverflow b s
    else onCode next s
  | .accumulatingData =>
    if next = 16 then onLast s
    else onData next s
  | .illegal => onIllegalState b s

/-- `RxStep(b)`: append, then classify (40_receiver.md R90). -/
def rxStep (b : Byte) (s : State) : Result :=
  classify b (nextCursor s.cursor) (appendByte b s)

/-- One iteration of the receive pass: with a byte waiting, read it and step; with none, the pass returns
(40_receiver.md R92). -/
def passStep (s : State) : Result :=
  avail s fun ready s =>
    if ready then readByte s rxStep
    else .next (endPass s)

/-- One step of the machine: an iteration of the running pass, or between passes a move of the environment (log 1). -/
def machineStep (s : State) : Result :=
  if s.passRunning then passStep s else idleStep s

/-- A frame received but for its last byte, which waits in the FIFO while a pass runs, with two quiet turns for the
`Avail` and the `ReadByte` that take it: the next step completes and dispatches it (log 15). -/
def loadFrame (f : Buffer) (s : State) : State :=
  { s with
    rxState := .accumulatingData
    cursor := 15
    rxbuf := f
    passRunning := true
    rxFifo := f[15] :: s.rxFifo
    script := .yield :: .yield :: s.script }

end Sys2Proof.Machine
end

