-- ==== Sys2Proof/Machine/Step.lean ====
section
/-! DEFINITION. The step of the machine and the host's placing of an instruction to be fetched. -/

namespace Sys2Proof.Machine

/-- One step (40_receiver.md R90, R92; log 1). -/
def step (s : State) : Host.Outcome State Fault Refusal := machineStep s

/-- `s` with the instruction of a table word received but for its last byte, so that the next step runs it (log 15). -/
def State.withFetchWord (s : State) (nbits w : Nat) : State := loadFrame (frameOfWord nbits w) s

end Sys2Proof.Machine
end

