-- ==== Sys2Proof/Machine/Ports.lean ====
section
/-! DEFINITION. The encodings the spec gives (10_state.md R21, 60_exceptions.md R142), the ports of 10_state.md R31 as
views of the state and of the trace's events, and the observations of 00_scope.md R19 (log 3). -/

namespace Sys2Proof.Machine

/-- The encoding of the receiver state (10_state.md R21; decision D5, log 19). -/
def rxStateEncoding : RxState → BitVec 2
  | .awaitingHeader => 0b00
  | .awaitingCode => 0b01
  | .accumulatingData => 0b10
  | .illegal => 0b11

/-- The receiver state of an encoding (10_state.md R21). -/
def rxStateOfEncoding (e : BitVec 2) : RxState :=
  if e = 0b00 then .awaitingHeader
  else if e = 0b01 then .awaitingCode
  else if e = 0b10 then .accumulatingData
  else .illegal

/-- `diag_event` (60_exceptions.md R142; log 21).  0 is NONE and 7 is never emitted. -/
def diagEncoding : DiagEvent → BitVec 3
  | .framingLoss => 1
  | .frameDiscarded => 2
  | .cmdProcessed => 3
  | .cmdIgnored => 4
  | .codeRejected => 5
  | .recovered => 6

/-- Ports `diag_event` and `diag_code` while an event happens: NONE and 0x00 for every other event (R142). -/
def diagPort : Event → BitVec 3 × Byte
  | .diag e x => (diagEncoding e, x)
  | .avail _ => (0, 0x00)
  | .readByte _ => (0, 0x00)
  | .writeByte _ => (0, 0x00)
  | .applyChannel _ => (0, 0x00)
  | .delay _ => (0, 0x00)
  | .busy _ => (0, 0x00)
  | .cfgChannel _ => (0, 0x00)

/-- Port `rx_avail` (R31). -/
def rxAvailPort (s : State) : Bool := !s.rxFifo.isEmpty

/-- Port `rx_data`, the oldest waiting byte; no value when none waits (R31). -/
def rxDataPort (s : State) : Option Byte := s.rxFifo.head?

/-- Port `rx_take`: one pulse per `ReadByte()`, with the byte popped (R31). -/
def rxTakePort : Event → Option Byte
  | .readByte b => some b
  | .avail _ => none
  | .writeByte _ => none
  | .applyChannel _ => none
  | .delay _ => none
  | .diag _ _ => none
  | .busy _ => none
  | .cfgChannel _ => none

/-- Ports `tx_data` and `tx_write`: one pulse per `WriteByte` (R31). -/
def txPort : Event → Option Byte
  | .writeByte b => some b
  | .avail _ => none
  | .readByte _ => none
  | .applyChannel _ => none
  | .delay _ => none
  | .diag _ _ => none
  | .busy _ => none
  | .cfgChannel _ => none

/-- Ports `apply_index` and `apply_strobe`: one pulse per `ApplyChannel` (R31). -/
def applyPort : Event → Option Byte
  | .applyChannel i => some i
  | .avail _ => none
  | .readByte _ => none
  | .writeByte _ => none
  | .delay _ => none
  | .diag _ _ => none
  | .busy _ => none
  | .cfgChannel _ => none

/-- Ports `cfg_channel_out` and `cfg_channel_we` (R31). -/
def cfgChannelPort : Event → Option Byte
  | .cfgChannel i => some i
  | .avail _ => none
  | .readByte _ => none
  | .writeByte _ => none
  | .applyChannel _ => none
  | .delay _ => none
  | .diag _ _ => none
  | .busy _ => none

/-- Ports `delay_req` and `delay_done`: the wait is one event, asked for and over (R31; log 14). -/
def delayPort : Event → Bool
  | .delay _ => true
  | .avail _ => false
  | .readByte _ => false
  | .writeByte _ => false
  | .applyChannel _ => false
  | .diag _ _ => false
  | .busy _ => false
  | .cfgChannel _ => false

/-- Port `busy` (R31): the level at a step boundary; its changes inside a step are `Event.busy` in the trace. -/
def busyPort (s : State) : Bool := s.busy

/-- Port `cfg_channel_in` (R31). -/
def cfgChannelInPort (s : State) : Byte := s.cfgChannel

/-- Port `cfg_power_in` (R31). -/
def cfgPowerInPort (s : State) : Byte := s.cfgPower

/-- Port `pass_req`: the environment's next move asks for a pass (R31). -/
def passReqPort (s : State) : Bool := s.script.head? == some .passReq

/-- Whether an event is one of those a claim observes: `WriteByte`, `ApplyChannel`, `ReadByte` and `Diag`
(00_scope.md R19). -/
def observedEvent : Event → Bool
  | .writeByte _ => true
  | .applyChannel _ => true
  | .readByte _ => true
  | .diag _ _ => true
  | .avail _ => false
  | .delay _ => false
  | .busy _ => false
  | .cfgChannel _ => false

/-- The bytes an event list pops from the receive FIFO, in order. -/
def poppedBytes (es : List Event) : List Byte := es.filterMap rxTakePort

/-- The bytes an event list sends, in order. -/
def sentBytes (es : List Event) : List Byte := es.filterMap txPort

/-- The transmit sink: every byte sent so far (00_scope.md R9, R14). -/
def txSink (s : State) : List Byte := sentBytes s.trace

/-- The RF driver's calls so far (00_scope.md R9, R14). -/
def driverCalls (s : State) : List Byte := s.trace.filterMap applyPort

/-- The observed trace (00_scope.md R19). -/
def observation (s : State) : List Event := s.trace.filter observedEvent

end Sys2Proof.Machine
end

