-- ==== Sys2Proof/Safety.lean ====
section
/-! DEFINITION. The terms in which claims about the block are stated: the invariants, what the environment's moves come
to, the state a reply leaves, and what a run shows (00_scope.md R19, 10_state.md R30, R33, 41_checksum.md R102). -/

namespace Sys2Proof.Machine

/-- `INV` of 10_state.md R30. -/
def RxInv (s : State) : Prop :=
  (s.rxState = .awaitingHeader ∧ s.cursor = 0) ∨ (s.rxState = .awaitingCode ∧ s.cursor = 1) ∨
    (s.rxState = .accumulatingData ∧ 2 ≤ s.cursor.toNat)

/-- The invariant of the machine between steps: `INV` (10_state.md R30), the header held at offset 0 of a frame in
progress (30_encoding.md R62), `busy` clear at every step boundary (43_reply_transmit.md R137), and parameters that keep
the spec's constraints (00_scope.md R11, 10_state.md R29). -/
structure MachineInv (s : State) : Prop where
  receiver : RxInv s
  header : s.rxState ≠ .awaitingHeader → s.rxbuf[0] = headerByte
  notBusy : s.busy = false
  params : s.params.wf = true

/-- Every byte ever sent belongs to a whole frame that starts with the header and is valid (41_checksum.md R105). -/
def SinkFramed (s : State) : Prop :=
  ∃ frames : List Buffer, txSink s = (frames.map Vector.toList).flatten ∧
    ∀ f ∈ frames, isValid f = true ∧ f[0] = headerByte

/-- Whether every `ReadByte` of an event list comes right after an `Avail` that answered true (00_scope.md R14,
60_exceptions.md R147); `ready` says whether the event before the list was one. -/
def readsGuarded : Bool → List Event → Bool
  | _, [] => true
  | ready, .readByte _ :: es => ready && readsGuarded false es
  | _, .avail answer :: es => readsGuarded answer es
  | _, .writeByte _ :: es => readsGuarded false es
  | _, .applyChannel _ :: es => readsGuarded false es
  | _, .delay _ :: es => readsGuarded false es
  | _, .diag _ _ :: es => readsGuarded false es
  | _, .busy _ :: es => readsGuarded false es
  | _, .cfgChannel _ :: es => readsGuarded false es

/-- The bytes that arrive in a list of moves, in order (00_scope.md R9). -/
def arrivalsOf (moves : List EnvMove) : List Byte :=
  moves.filterMap fun m => match m with
    | .arrive b => some b
    | .passReq => none
    | .cfgChannel _ => none
    | .cfgPower _ => none
    | .yield => none

/-- `RxStep` of each byte in order (40_receiver.md R90, R93). -/
def feed : List Byte → State → Result
  | [], s => .next s
  | b :: bs, s => andThen (rxStep b s) (feed bs)

/-- A run of `k` steps of the machine (70_reset_and_hazards.md R169). -/
def runSteps : Nat → State → Result
  | 0, s => .next s
  | k + 1, s => andThen (runSteps k s) step

/-- The running accumulator of 41_checksum.md R102: cleared by the HEADER class, then fed the bytes appended at offsets 1
to 13.  It is no state of the machine (log 18). -/
def accumulate (acc : Byte) (b : Byte) (s : State) : Byte :=
  if s.rxState = .awaitingHeader ∧ b = headerByte then 0
  else if 1 ≤ s.cursor.toNat ∧ s.cursor.toNat ≤ 13 then acc + b
  else acc

/-- The sum of a buffer's checksummed bytes at offsets below `n`. -/
def partialSum (f : Buffer) (n : Nat) : Byte :=
  (csumOffsets.filter (fun i => i.val < n)).foldl (fun acc i => acc + f[i]) 0x00

/-- The accumulator holds the sum of the checksummed bytes received so far in the frame in progress. -/
def AccAgrees (acc : Byte) (s : State) : Prop :=
  s.rxState ≠ .awaitingHeader → acc = partialSum s.rxbuf s.cursor.toNat

/-- Two states that differ in the buffers alone, and in `rxbuf` only at or past the cursor (10_state.md R33). -/
def SameButStaleBytes (s t : State) : Prop :=
  t = { s with rxbuf := t.rxbuf, txbuf := t.txbuf } ∧
    ∀ (k : Nat) (h : k < 16), k < s.cursor.toNat → t.rxbuf[k] = s.rxbuf[k]

/-- The events of sending a frame: `busy` set, 16 writes in order, the delay, `busy` clear (43_reply_transmit.md R132 to
R135). -/
def sendEvents (d : Nat) (f : Buffer) : List Event :=
  [.busy true] ++ f.toList.map .writeByte ++ [.delay d, .busy false]

/-- The events of a drain read that found nothing, or popped a byte (43_reply_transmit.md R136). -/
def drainEvents : Option Byte → List Event
  | none => [.avail false]
  | some x => [.avail true, .readByte x]

/-- What the environment does while a frame is sent and drained: 18 turns up to the drain's `Avail`; with a byte waiting
then, the oldest is drained after one more turn.  `fifo` and `rest` are the FIFO and the moves left at the end. -/
def SendEnv (s : State) (drained : Option Byte) (fifo : List Byte) (rest : List EnvMove) : Prop :=
  ∃ a r, takeTurns 18 s.script = .ok (a, r) ∧
    ((s.rxFifo ++ a = [] ∧ drained = none ∧ fifo = [] ∧ rest = r) ∨
      ∃ x q a', s.rxFifo ++ a = x :: q ∧ drained = some x ∧ takeTurns 1 r = .ok (a', rest) ∧ fifo = q ++ a')

/-- What the environment does during a whole reply arm: a send, then one turn before the result event. -/
def ReplyEnv (s : State) (drained : Option Byte) (fifo : List Byte) (rest : List EnvMove) : Prop :=
  ∃ q r a, SendEnv s drained q r ∧ takeTurns 1 r = .ok (a, rest) ∧ fifo = q ++ a

/-- What the environment does when it breaks a duty during a whole reply arm, with the fault `f`: in one of the 18 turns up
to the drain's `Avail`, in the drain's `ReadByte` when a byte waits then, or in the turn before the result event. -/
def ReplyBroken (s : State) (f : Fault) : Prop :=
  takeTurns 18 s.script = .error f ∨
    ∃ a r, takeTurns 18 s.script = .ok (a, r) ∧
      ((s.rxFifo ++ a = [] ∧ takeTurns 1 r = .error f) ∨ (s.rxFifo ++ a ≠ [] ∧ takeTurns 2 r = .error f))

/-- The state after a reply arm that sent the frame `f` and drained `drained` (43_reply_transmit.md R138, 42_dispatch.md
R120): nothing but the transmit buffer, `busy`, the FIFO, the trace and the environment's script is written. -/
def replied (code : Byte) (f : Buffer) (drained : Option Byte) (fifo : List Byte) (rest : List EnvMove) (s : State) : State :=
  { s with
    txbuf := f
    busy := false
    rxFifo := fifo
    script := rest
    trace := s.trace ++ sendEvents s.params.drainDelay f ++ drainEvents drained ++ [.diag .cmdProcessed code] }

end Sys2Proof.Machine
end

