-- ==== Sys2Proof/Certificates/Slice0/Obligations.lean ====
section
/-! DEFINITION. The statements about the block, for the provers.  Each docstring names the rule of spec/ it formalises and,
where it rests on a decision the spec marks as its own or on a choice of the model, says so. -/

open Sys2Proof Sys2Proof.Machine

/-! ## Encoding -/

/-- Decoding the frame of any well-formed instruction gives the instruction back, every operand and every unread payload
byte included (30_encoding.md R61, R63, R65, R72).  That the unread payload is part of the instruction is the model's
choice (log 17); the code values are the spec's decision D7 (log 12). -/
def Obligations.DecodeInvertsEncode : Prop :=
  ∀ i : Instr, i.wf = true → decodeFrame (encode i) = .ok i ∧ decode (encode i).toList = .ok i

/-- A frame that starts with the header and decodes is exactly the encoding of a well-formed instruction
(30_encoding.md R61, R62). -/
def Obligations.EncodeReproducesDecodedFrame : Prop :=
  ∀ (f : Buffer) (i : Instr), f[0] = 0x0F → decodeFrame f = .ok i → i.wf = true ∧ encode i = f

/-- A buffer is a valid frame, and decodes, exactly when byte 14 is the wraparound sum of bytes 1 to 13 and byte 15 is 0;
byte 0 is not read (41_checksum.md R101, R100). -/
def Obligations.FrameDecodesExactlyWhenValid : Prop :=
  ∀ f : Buffer,
    (isValid f = true ↔ f[14] = f[1] + f[2] + f[3] + f[4] + f[5] + f[6] + f[7] + f[8] + f[9] + f[10] + f[11] + f[12] + f[13]
      ∧ f[15] = 0x00) ∧
    ((∃ i, decodeFrame f = .ok i) ↔ isValid f = true) ∧
    ∀ b : Byte, isValid (f.set 0 b) = isValid f

/-- The command byte alone selects the arm, by exact equality with the four codes and OTHER for the rest, and SETFREQ's
operand is the little-endian field at offsets 2 and 3 (42_dispatch.md R110, 30_encoding.md R63, R65, R72; the code
values are the spec's decision D7, log 12). -/
def Obligations.CommandByteSelectsArm : Prop :=
  ∀ (f : Buffer) (i : Instr), decodeFrame f = .ok i →
    (f[1] = 0x72 → i = .range (payloadOf f)) ∧
    (f[1] = 0x76 → i = .status (payloadOf f)) ∧
    (f[1] = 0x46 → ∃ freq, i = .setFreq freq (payloadRestOf f) ∧ freq.toNat = f[2].toNat + 256 * f[3].toNat) ∧
    (f[1] = 0x73 → i = .setPower (payloadOf f)) ∧
    (f[1] ≠ 0x72 → f[1] ≠ 0x76 → f[1] ≠ 0x46 → f[1] ≠ 0x73 → i = .other f[1] (payloadOf f))

/-- Frames of 95_test_vectors.md, written out, decode to what they stand for: REQ_R, REQ_V, REQ_F(5732), REQ_S and
FRAME('x';); its frames with a bad checksum (CS-10) and a bad trailer (CS-11), and 15 bytes (in no vector; a frame has 16,
30_encoding.md R60), are refused.  The names of the refusals are the model's choice (log 25), and the code values are the
spec's decision D7 (log 12). -/
def Obligations.WrittenOutFramesDecode : Prop :=
  decode [0x0F, 0x72, 0, 0, 0, 0, 0, 0, 0, 0, 0, 0, 0, 0, 0x72, 0] = .ok (.range (Vector.replicate 12 0)) ∧
  decode [0x0F, 0x76, 0, 0, 0, 0, 0, 0, 0, 0, 0, 0, 0, 0, 0x76, 0] = .ok (.status (Vector.replicate 12 0)) ∧
  decode [0x0F, 0x46, 0x64, 0x16, 0, 0, 0, 0, 0, 0, 0, 0, 0, 0, 0xC0, 0] = .ok (.setFreq 5732 (Vector.replicate 10 0)) ∧
  decode [0x0F, 0x73, 0, 0, 0, 0, 0, 0, 0, 0, 0, 0, 0, 0, 0x73, 0] = .ok (.setPower (Vector.replicate 12 0)) ∧
  decode [0x0F, 0x78, 0, 0, 0, 0, 0, 0, 0, 0, 0, 0, 0, 0, 0x78, 0] = .ok (.other 0x78 (Vector.replicate 12 0)) ∧
  decode [0x0F, 0x72, 0, 0, 0, 0, 0, 0, 0, 0, 0, 0, 0, 0, 0x73, 0] = .error .badChecksum ∧
  decode [0x0F, 0x72, 0, 0, 0, 0, 0, 0, 0, 0, 0, 0, 0, 0, 0x72, 1] = .error .badTrailer ∧
  decode [0x0F, 0x72, 0, 0, 0, 0, 0, 0, 0, 0, 0, 0, 0, 0, 0x72] = .error .wrongLength

/-! ## Checksum and buffers -/

/-- The checksum is the sum of bytes 1 to 13 modulo 256, and the header, byte 14 and byte 15 are excluded
(41_checksum.md R100). -/
def Obligations.ChecksumIsSumModulo256 : Prop :=
  ∀ f : Buffer,
    (checksum f).toNat = (csumOffsets.map (fun i => f[i].toNat)).sum % 256 ∧
    (csumOffsets.map Fin.val = List.range' 1 13) ∧
    (f = Vector.replicate 16 0x00 → checksum f = 0x00) ∧
    (csumOffsets.map (fun i => f[i].toNat)).sum ≤ 3315 ∧
    ∀ b : Byte, checksum (f.set 0 b) = checksum f ∧ checksum (f.set 14 b) = checksum f ∧ checksum (f.set 15 b) = checksum f

/-- Changing one byte at an offset 1 to 13 changes the checksum; two buffers have equal checksums exactly when their sums
differ by a multiple of 256; and the order of summation does not matter (41_checksum.md R103). -/
def Obligations.ChecksumDetectsByteChanges : Prop :=
  (∀ (f : Buffer) (k : Nat) (h : k < 16) (b : Byte), 1 ≤ k → k ≤ 13 → b ≠ f[k] → checksum (f.set k b) ≠ checksum f) ∧
  (∀ f g : Buffer, checksum f = checksum g ↔
    (csumOffsets.map (fun i => f[i].toNat)).sum % 256 = (csumOffsets.map (fun i => g[i].toNat)).sum % 256) ∧
  (∀ (f : Buffer) (order : List (Fin 16)), order.Perm csumOffsets →
    order.foldl (fun acc i => acc + f[i]) 0x00 = checksum f)

/-- A running accumulator, cleared by the HEADER class and fed the bytes appended at offsets 1 to 13, keeps the partial
sum along every receiver step from a state of 10_state.md R30's invariant, and at a frame's last byte it is the checksum
of the whole buffer (41_checksum.md R102; the accumulator is no state of the machine, log 18). -/
def Obligations.RunningAccumulatorEqualsChecksum : Prop :=
  (∀ (s t : State) (acc b : Byte), RxInv s → AccAgrees acc s → rxStep b s = .next t →
    AccAgrees (accumulate acc b s) t) ∧
  (∀ (s : State) (acc b : Byte), RxInv s → AccAgrees acc s → s.rxState = .accumulatingData → s.cursor = 15 →
    acc = checksum (putAt s.rxbuf s.cursor b)) ∧
  (∀ acc : Byte, AccAgrees acc State.reset)

/-- FINALIZE writes the checksum of bytes 1 to 13 at offset 14 and 0 at offset 15, changes nothing else of the state, and
leaves a valid frame (41_checksum.md R104). -/
def Obligations.FinalizeWritesChecksumAndTrailer : Prop :=
  ∀ s : State, ∃ f : Buffer,
    finalize s = { s with txbuf := f } ∧ f[14] = checksum s.txbuf ∧ f[15] = 0x00 ∧
    (∀ (k : Nat) (h : k < 14), f[k] = s.txbuf[k]) ∧ isValid f = true

/-- 16-bit fields stand at the even offsets 2 to 12 and nowhere else, and are little-endian: a field read is low byte plus
256 times the high byte at the next offset, a field written reads back, and a write leaves every other byte
(20_memory.md R41, R43, R44, 30_encoding.md R61; that no misaligned access can be expressed is the spec's decision D24,
log 30). -/
def Obligations.HalfFieldsAreLittleEndian : Prop :=
  (∀ n : Nat, (∃ off, (halfOffset off).val = n) ↔ n % 2 = 0 ∧ 2 ≤ n ∧ n ≤ 12) ∧
  ∀ (buf : Buffer) (off : HalfOffset) (v : Half),
    (memRead2 buf off).toNat = (buf[(halfOffset off).val]).toNat + 256 * (buf[(halfOffset off).val + 1]).toNat ∧
    memRead2 (memWrite2 buf off v) off = v ∧
    (memWrite2 buf off v)[(halfOffset off).val] = BitVec.ofNat 8 v.toNat ∧
    (memWrite2 buf off v)[(halfOffset off).val + 1] = BitVec.ofNat 8 (v.toNat / 256) ∧
    ∀ (k : Nat) (h : k < 16), k ≠ (halfOffset off).val → k ≠ (halfOffset off).val + 1 → (memWrite2 buf off v)[k] = buf[k]

/-- The lookups: ChanFreq and PowVal index their tables and fall back to FREQ_SENTINEL and POWER_DEFAULT, and ChanIndex
finds the least entry that equals the frequency exactly, inverting ChanFreq on a table without repeats (42_dispatch.md
R114, R115, R117; the fallbacks and the tie-break are the spec's decisions D14, D15, D16, logs 9 and 26). -/
def Obligations.LookupsFollowTables : Prop :=
  ∀ p : Params,
    (∀ (i : Byte) (h : i.toNat < 10), chanFreq p i = p.channelTable[i.toNat]) ∧
    (∀ i : Byte, 10 ≤ i.toNat → chanFreq p i = p.freqSentinel) ∧
    (∀ (i : Byte) (h : i.toNat < 2), powVal p i = p.powerTable[i.toNat]) ∧
    (∀ i : Byte, 2 ≤ i.toNat → powVal p i = p.powerDefault) ∧
    (∀ (v : Half) (i : Byte), chanIndex p v = some i ↔
      i.toNat < 10 ∧ p.channelTable.toList[i.toNat]? = some v ∧ ∀ k, k < i.toNat → p.channelTable.toList[k]? ≠ some v) ∧
    (∀ v : Half, chanIndex p v = none ↔ v ∉ p.channelTable.toList) ∧
    (p.bidirectional = true → ∀ i : Byte, i.toNat < 10 → chanIndex p (chanFreq p i) = some i)

/-! ## Reset and the invariants -/

/-- After reset the receiver awaits a header with cursor 0, `busy` is clear, the FIFO is empty and the code filter is
disabled (10_state.md R32, 70_reset_and_hazards.md R160, 00_scope.md R11), and the trace is empty, which is the model's
choice (log 3).  Cursor 0 and `busy` 0 are the spec's decision D22 (log 7); nothing is said of the buffers
(log 5) or of the configuration store (log 6). -/
def Obligations.ResetAwaitsHeader : Prop :=
  State.reset.rxState = .awaitingHeader ∧ State.reset.cursor = 0 ∧ State.reset.busy = false ∧
    State.reset.rxFifo = [] ∧ State.reset.trace = [] ∧ State.reset.params.codeFilterEnabled = false

/-- The state after reset meets the invariant and has sent nothing, so its sink is framed; the empty trace keeps `ReadByte`
guarded, and no pass runs (10_state.md R30, R32; the busy and cursor values are the spec's decision D22, log 7; the empty
trace is log 3, and that no pass runs is log 4). -/
def Obligations.ResetMeetsMachineInvariant : Prop :=
  MachineInv State.reset ∧ txSink State.reset = [] ∧ SinkFramed State.reset ∧ readsGuarded false State.reset.trace = true ∧
    State.reset.passRunning = false

/-- Every step keeps the invariant: the receiver state and the cursor agree, the header is held at offset 0 of a frame in
progress, `busy` is clear, the parameters keep their constraints (10_state.md R30, 30_encoding.md R62,
43_reply_transmit.md R137). -/
def Obligations.StepKeepsMachineInvariant : Prop :=
  ∀ s t : State, MachineInv s → step s = .next t → MachineInv t

/-- Every step keeps this: all bytes ever sent form whole frames that start with the header and are valid, so every reply
does, whatever the arm, the configuration and the (well-formed) STATUS layout (41_checksum.md R105). -/
def Obligations.SentBytesStayValidFrames : Prop :=
  ∀ s t : State, s.params.wf = true → SinkFramed s → step s = .next t → t.params.wf = true ∧ SinkFramed t

/-- Every step keeps this: each `ReadByte` of the trace comes right after an `Avail` that answered true (00_scope.md R14,
60_exceptions.md R147). -/
def Obligations.ReadsStayGuardedByAvail : Prop :=
  ∀ s t : State, readsGuarded false s.trace = true → step s = .next t → readsGuarded false t.trace = true

/-- The buffers' unspecified contents are never observable: two states that differ only in the transmit buffer and in
receive-buffer bytes at or past the cursor make the same step, with equal traces, and stay so related; if one stops, the
other stops with the same fault (10_state.md R33, R32; so no claim depends on the reset contents of log 5). -/
def Obligations.BufferContentsUnobservable : Prop :=
  ∀ s t : State, SameButStaleBytes s t →
    (∀ s', step s = .next s' → ∃ t', step t = .next t' ∧ SameButStaleBytes s' t' ∧ t'.trace = s'.trace) ∧
    (∀ f, step s = .fault f → step t = .fault f)

/-- Each byte of the receive FIFO is popped once, in arrival order, and only by `ReadByte`: what waited, followed by what
the environment's spent moves delivered, is what was popped followed by what waits now; and the trace only grows
(20_memory.md R46, R54). -/
def Obligations.BytesConsumedOnceInOrder : Prop :=
  ∀ s t : State, step s = .next t → ∃ (spent : List EnvMove) (es : List Event),
    s.script = spent ++ t.script ∧ t.trace = s.trace ++ es ∧
      s.rxFifo ++ arrivalsOf spent = poppedBytes es ++ t.rxFifo

/-- While a pass runs, a step writes `cfg_channel` only together with a driver call of the same index, which a dispatched
SETFREQ frame asked for, and it never writes `cfg_power` or a parameter (42_dispatch.md R121, R116, 10_state.md R26, R27,
R29). -/
def Obligations.ConfigurationWrittenOnlyByMatch : Prop :=
  ∀ s t : State, s.passRunning = true → step s = .next t →
    t.cfgPower = s.cfgPower ∧ t.params = s.params ∧
      (t.cfgChannel = s.cfgChannel ∨
        ∃ (f : Buffer) (freq : Half) (rest : PayloadRest) (i : Byte),
          s.rxState = .accumulatingData ∧ f.toList.take 15 = s.rxbuf.toList.take 15 ∧
          decodeFrame f = .ok (.setFreq freq rest) ∧ chanIndex s.params freq = some i ∧
          t.cfgChannel = i ∧ ∃ pre post, t.trace = s.trace ++ pre ++ [.cfgChannel i, .applyChannel i] ++ post)

/-! ## The receiver -/

/-- HEADER: 0x0F in AwaitingHeader, but for a corrupted cursor of 15, moves to AwaitingCode with the cursor advanced and
the byte stored (40_receiver.md R82). -/
def Obligations.HeaderByteStartsFrame : Prop :=
  ∀ s : State, s.rxState = .awaitingHeader → s.cursor ≠ 15 →
    rxStep 0x0F s = .next { s with rxState := .awaitingCode, cursor := s.cursor + 1, rxbuf := putAt s.rxbuf s.cursor 0x0F }

/-- NOISE: any other byte in AwaitingHeader resynchronises and signals FRAMING_LOSS with the byte, whatever the cursor;
the byte stays in the buffer (40_receiver.md R83). -/
def Obligations.NoiseByteResynchronizes : Prop :=
  ∀ (s : State) (b : Byte) (a : List Byte) (r : List EnvMove),
    s.rxState = .awaitingHeader → b ≠ 0x0F → takeTurns 1 s.script = .ok (a, r) →
    rxStep b s = .next { s with
      rxState := .awaitingHeader, cursor := 0, rxbuf := putAt s.rxbuf s.cursor b, rxFifo := s.rxFifo ++ a, script := r,
      trace := s.trace ++ [.diag .framingLoss b] }

/-- CODE and CODE_REJECTED: in AwaitingCode a byte moves to AccumulatingData when the filter is off or holds it (but for a
corrupted cursor of 15), and otherwise resynchronises with CODE_REJECTED, a 0x0F like any other (40_receiver.md R84, R85;
what a rejection does is the spec's decision D8, log 22). -/
def Obligations.CodeFilterDecidesFrame : Prop :=
  ∀ (s : State) (b : Byte), s.rxState = .awaitingCode →
    ((s.params.codeFilterEnabled = false ∨ b ∈ s.params.codeFilterSet) → s.cursor ≠ 15 →
      rxStep b s = .next { s with
        rxState := .accumulatingData, cursor := s.cursor + 1, rxbuf := putAt s.rxbuf s.cursor b }) ∧
    (s.params.codeFilterEnabled = true → b ∉ s.params.codeFilterSet →
      ∀ a r, takeTurns 1 s.script = .ok (a, r) →
        rxStep b s = .next { s with
          rxState := .awaitingHeader, cursor := 0, rxbuf := putAt s.rxbuf s.cursor b, rxFifo := s.rxFifo ++ a,
          script := r, trace := s.trace ++ [.diag .codeRejected b] })

/-- DATA: in AccumulatingData a byte that does not complete the frame is stored uninspected and the cursor advances
(40_receiver.md R86). -/
def Obligations.DataByteIsStored : Prop :=
  ∀ (s : State) (b : Byte), s.rxState = .accumulatingData → s.cursor ≠ 15 →
    rxStep b s = .next { s with cursor := s.cursor + 1, rxbuf := putAt s.rxbuf s.cursor b }

/-- LAST: the byte that completes the frame dispatches it when it is valid, signals FRAME_DISCARDED with its code when it
is not, and in both cases the receiver then awaits a header at cursor 0 (40_receiver.md R87, R91). -/
def Obligations.LastByteDispatchesOrDiscards : Prop :=
  ∀ (s : State) (b : Byte), s.rxState = .accumulatingData → s.cursor = 15 →
    (∀ i, isValid (s.rxbuf.set 15 b) = true → decodeFrame (s.rxbuf.set 15 b) = .ok i →
      ∀ t, exec i { s with rxbuf := s.rxbuf.set 15 b } = .next t →
        rxStep b s = .next { t with rxState := .awaitingHeader, cursor := 0 }) ∧
    (isValid (s.rxbuf.set 15 b) = false → ∀ a r, takeTurns 1 s.script = .ok (a, r) →
      rxStep b s = .next { s with
        rxState := .awaitingHeader, cursor := 0, rxbuf := s.rxbuf.set 15 b, rxFifo := s.rxFifo ++ a, script := r,
        trace := s.trace ++ [.diag .frameDiscarded s.rxbuf[1]] })

/-- RECOVER_STATE and RECOVER_OVERFLOW: the illegal state encoding, and a corrupted cursor of 15 in AwaitingHeader (on a
header byte) or in AwaitingCode (on an accepted code), resynchronise with RECOVERED; nothing is dispatched
(40_receiver.md R88, R89; the spec's decisions D6 and D28, log 23). -/
def Obligations.CorruptedReceiverRecovers : Prop :=
  ∀ (s : State) (b : Byte) (a : List Byte) (r : List EnvMove),
    (s.rxState = .illegal ∨ (s.rxState = .awaitingHeader ∧ s.cursor = 15 ∧ b = 0x0F) ∨
      (s.rxState = .awaitingCode ∧ s.cursor = 15 ∧ codeAccepted s.params b = true)) →
    takeTurns 1 s.script = .ok (a, r) →
    rxStep b s = .next { s with
      rxState := .awaitingHeader, cursor := 0, rxbuf := putAt s.rxbuf s.cursor b, rxFifo := s.rxFifo ++ a, script := r,
      trace := s.trace ++ [.diag .recovered b] }

/-- Cursor bounds: the advanced cursor is at most 16; a step that computes 16 ends with cursor 0, and any step ends with
the cursor advanced by one or at 0 in AwaitingHeader (40_receiver.md R93, 10_state.md R22). -/
def Obligations.CursorNeverPassesSixteen : Prop :=
  ∀ (s t : State) (b : Byte), rxStep b s = .next t →
    (nextCursor s.cursor).toNat = s.cursor.toNat + 1 ∧ (nextCursor s.cursor).toNat ≤ 16 ∧
    ((nextCursor s.cursor).toNat = 16 → t.cursor = 0) ∧
    ((t.cursor = 0 ∧ t.rxState = .awaitingHeader) ∨ t.cursor.toNat = s.cursor.toNat + 1)

/-- From any state at all, corrupted ones included, the receiver meets the invariant again within 16 bytes
(10_state.md R30; the recovery of corrupted states is the spec's decision D28, log 23). -/
def Obligations.RecoversWithinSixteenBytes : Prop :=
  ∀ (s u : State) (bs : List Byte), bs.length = 16 → feed bs s = .next u →
    ∃ (k : Nat) (t : State), k ≤ 16 ∧ feed (bs.take k) s = .next t ∧ RxInv t

/-- Sixteen bytes that are not 0x0F force the receiver to await a header at cursor 0, from any state
(70_reset_and_hazards.md R167). -/
def Obligations.PaddingForcesResynchronization : Prop :=
  ∀ (s t : State) (bs : List Byte), bs.length = 16 → (∀ b ∈ bs, b ≠ 0x0F) → feed bs s = .next t →
    t.rxState = .awaitingHeader ∧ t.cursor = 0

/-! ## The step, the pass and the environment -/

/-- In a running pass with a byte waiting, a step takes the oldest byte and makes the receiver step with it; and when that
byte completes a frame that decodes, the step is the instruction's meaning at that state followed by the
resynchronisation (40_receiver.md R87, R92; the environment's two turns are log 2). -/
def Obligations.StepRunsDecodedInstruction : Prop :=
  ∀ (s : State) (a1 a2 q : List Byte) (r1 r2 : List EnvMove) (b : Byte),
    s.passRunning = true → takeTurns 1 s.script = .ok (a1, r1) → s.rxFifo ++ a1 = b :: q →
    takeTurns 1 r1 = .ok (a2, r2) →
    step s = rxStep b { s with rxFifo := q ++ a2, script := r2, trace := s.trace ++ [.avail true, .readByte b] } ∧
    ∀ i, s.rxState = .accumulatingData → s.cursor = 15 → decodeFrame (s.rxbuf.set 15 b) = .ok i →
      step s = andThen
        (exec i { s with
          rxbuf := s.rxbuf.set 15 b, rxFifo := q ++ a2, script := r2, trace := s.trace ++ [.avail true, .readByte b] })
        (fun t => .next { t with rxState := .awaitingHeader, cursor := 0 })

/-- A frame received byte by byte: from AwaitingHeader at cursor 0, in a running pass, with 16 bytes waiting of which the
first is the header and the second passes the filter, sixteen steps bring the frame into `rxbuf` unexamined and then run
what it decodes to, or discard it; no byte in it is taken for a header (40_receiver.md R94, R95, R96, R87). -/
def Obligations.SixteenBytesRunTheFrame : Prop :=
  ∀ (s : State) (f : Buffer) (q a : List Byte) (r : List EnvMove),
    s.passRunning = true → s.rxState = .awaitingHeader → s.cursor = 0 → f[0] = 0x0F →
    codeAccepted s.params f[1] = true → s.rxFifo = f.toList ++ q → takeTurns 32 s.script = .ok (a, r) →
    let u : State := { s with
      rxState := .accumulatingData, cursor := 15, rxbuf := f, rxFifo := q ++ a, script := r,
      trace := s.trace ++ f.toList.flatMap (fun b => [.avail true, .readByte b]) }
    (∀ i, decodeFrame f = .ok i →
      runSteps 16 s = andThen (exec i u) (fun t => .next { t with rxState := .awaitingHeader, cursor := 0 })) ∧
    (isValid f = false →
      runSteps 16 s = andThen (diag .frameDiscarded f[1] u) (fun t => .next { t with rxState := .awaitingHeader, cursor := 0 }))

/-- A pass whose `Avail` finds the FIFO empty returns, and the receiver's state, cursor and buffer, and everything else,
persist to the next pass (40_receiver.md R92, 70_reset_and_hazards.md R169). -/
def Obligations.PassEndsWhenFifoIsEmpty : Prop :=
  ∀ (s : State) (r : List EnvMove), s.passRunning = true → s.rxFifo = [] → takeTurns 1 s.script = .ok ([], r) →
    step s = .next { s with passRunning := false, script := r, trace := s.trace ++ [.avail false] }

/-- Between passes a step is one move of the environment, each a liberty of 60_exceptions.md R147 with just its own
effect, and with no move left the block is quiescent (R147, 20_memory.md R52, 70_reset_and_hazards.md R169; that a step
is one move is log 1). -/
def Obligations.IdleStepsAreEnvironmentMoves : Prop :=
  ∀ s : State, s.passRunning = false →
    (s.script = [] → step s = .next s) ∧
    (∀ b rest, s.script = .arrive b :: rest → step s = .next { s with rxFifo := s.rxFifo ++ [b], script := rest }) ∧
    (∀ rest, s.script = .passReq :: rest → step s = .next { s with passRunning := true, script := rest }) ∧
    (∀ v rest, s.script = .cfgChannel v :: rest → step s = .next { s with cfgChannel := v, script := rest }) ∧
    (∀ v rest, s.script = .cfgPower v :: rest → step s = .next { s with cfgPower := v, script := rest }) ∧
    (∀ rest, s.script = .yield :: rest → step s = .next { s with script := rest })

/-- The block raises no fault: a step refuses nothing, and if it stops, then a pass is running and the environment broke a
duty in one of the 22 turns the step gives it, by a store write or a pass request (60_exceptions.md R140, R148; the turns
and their number are the model's choice, log 2, and so are the faults' names, log 24). -/
def Obligations.OnlyBrokenDutiesStopAStep : Prop :=
  ∀ s : State,
    (∀ x, step s ≠ .refused x) ∧
    (∀ f, step s = .fault f → s.passRunning = true ∧ takeTurns 22 s.script = .error f ∧
      (f = .cfgWriteDuringPass ∨ f = .passOverlap))

/-- Under an environment that keeps its duties every instruction completes, and so does every step, from any state
(60_exceptions.md R140, 40_receiver.md R90, R91; the turns and their number are the model's choice, log 2). -/
def Obligations.DutifulEnvironmentNeverStops : Prop :=
  (∀ (i : Instr) (s : State) (p : List Byte × List EnvMove), takeTurns 20 s.script = .ok p → ∃ t, exec i s = .next t) ∧
  (∀ (s : State) (p : List Byte × List EnvMove), takeTurns 22 s.script = .ok p → ∃ t, step s = .next t)

/-- The broken duties are faults: reading an empty FIFO; during a pass a store write or a second pass request in the first
turn of a step, after whatever arrives first; and either of them in any later turn that the step takes: the `ReadByte`'s, the
diagnostic's of a byte that resynchronises the receiver or completes an invalid frame, and one in which the dispatch of the
frame that the byte completes faults (60_exceptions.md R148; BrokenDutyDuringDispatchFaults says when a dispatch faults; the
turns are log 2 and the faults' names log 24). -/
def Obligations.BrokenDutiesFault : Prop :=
  (∀ (s : State) (k : Byte → State → Result) (r : List EnvMove),
    s.rxFifo = [] → takeTurns 1 s.script = .ok ([], r) → readByte s k = .fault .readEmptyFifo) ∧
  (∀ (moves : List EnvMove) (bytes : List Byte) (v : Byte) (rest : List EnvMove),
    (moves = bytes.map .arrive ++ .passReq :: rest → takeTurns 1 moves = .error .passOverlap) ∧
    (moves = bytes.map .arrive ++ .cfgChannel v :: rest → takeTurns 1 moves = .error .cfgWriteDuringPass) ∧
    (moves = bytes.map .arrive ++ .cfgPower v :: rest → takeTurns 1 moves = .error .cfgWriteDuringPass)) ∧
  (∀ (s : State) (f : Fault), s.passRunning = true → takeTurns 1 s.script = .error f → step s = .fault f) ∧
  ∀ (s : State) (f : Fault) (a1 q : List Byte) (r1 : List EnvMove) (b : Byte),
    s.passRunning = true → takeTurns 1 s.script = .ok (a1, r1) → s.rxFifo ++ a1 = b :: q →
    (takeTurns 1 r1 = .error f → step s = .fault f) ∧
    ∀ (a2 : List Byte) (r2 : List EnvMove), takeTurns 1 r1 = .ok (a2, r2) →
      (((s.rxState = .awaitingHeader ∧ (b ≠ 0x0F ∨ s.cursor = 15)) ∨
          (s.rxState = .awaitingCode ∧ (codeAccepted s.params b = false ∨ s.cursor = 15)) ∨
          (s.rxState = .accumulatingData ∧ s.cursor = 15 ∧ isValid (s.rxbuf.set 15 b) = false) ∨ s.rxState = .illegal) →
        takeTurns 1 r2 = .error f → step s = .fault f) ∧
      ∀ i, s.rxState = .accumulatingData → s.cursor = 15 → decodeFrame (s.rxbuf.set 15 b) = .ok i →
        exec i { s with
          rxbuf := s.rxbuf.set 15 b, rxFifo := q ++ a2, script := r2, trace := s.trace ++ [.avail true, .readByte b] } =
            .fault f →
        step s = .fault f

/-! ## The transmit sequence -/

/-- TRANSMIT finalises the transmit buffer, sets `busy`, writes the 16 bytes in order, delays, clears `busy` and drains at
most one byte, the oldest waiting; nothing else changes (43_reply_transmit.md R131 to R136, R138; that the drain follows
the clear and asks `Avail` first are the spec's decisions D19 and D20, log 20; the environment's turns are log 2). -/
def Obligations.TransmitSendsThenDrainsOnce : Prop :=
  ∀ (s : State) (f : Buffer) (x : Option Byte) (fifo : List Byte) (rest : List EnvMove),
    (∀ (k : Nat) (h : k < 14), f[k] = s.txbuf[k]) → f[14] = checksum s.txbuf → f[15] = 0x00 → SendEnv s x fifo rest →
    transmit s = .next { s with
      txbuf := f, busy := false, rxFifo := fifo, script := rest,
      trace := s.trace ++ sendEvents s.params.drainDelay f ++ drainEvents x }

/-- The drain read asks `Avail` once, and only when a byte waits it pops the oldest and discards it: nothing else of the
state changes, no other byte is lost, and bytes that arrive wait behind the others (43_reply_transmit.md R136, R139; that it
asks `Avail` first is the spec's decision D19, log 20; the environment's turns are log 2).  A duty broken in one of its
turns is its fault (log 24). -/
def Obligations.DrainReadDiscardsOldestByte : Prop :=
  ∀ s : State,
    (∀ f, takeTurns 1 s.script = .error f → drainRead s = .fault f) ∧
    ∀ (a : List Byte) (r : List EnvMove), takeTurns 1 s.script = .ok (a, r) →
      (s.rxFifo ++ a = [] →
        drainRead s = .next { s with rxFifo := [], script := r, trace := s.trace ++ [.avail false] }) ∧
      ∀ (x : Byte) (q : List Byte), s.rxFifo ++ a = x :: q →
        (∀ f, takeTurns 1 r = .error f → drainRead s = .fault f) ∧
        ∀ (a' : List Byte) (r' : List EnvMove), takeTurns 1 r = .ok (a', r') →
          drainRead s = .next { s with
            rxFifo := q ++ a', script := r', trace := s.trace ++ [.avail true, .readByte x] }

/-! ## The arms -/

/-- RANGE answers the constant reply whatever the payload and the configuration, and ends with CMD_PROCESSED
(42_dispatch.md R112, 30_encoding.md R68).  The zero bytes 8 to 13 are the spec's decision D9 (log 13) and the code value
its decision D7 (log 12). -/
def Obligations.RangeRepliesFixedBounds : Prop :=
  ∀ (p : Payload) (s : State) (x : Option Byte) (fifo : List Byte) (rest : List EnvMove), ReplyEnv s x fifo rest →
    exec (.range p) s = .next (replied 0x72
      #v[0x0F, 0x72, 0x1A, 0x16, 0x1D, 0x17, 0xC8, 0x00, 0x00, 0x00, 0x00, 0x00, 0x00, 0x00, 0x9E, 0x00] x fifo rest s)

/-- STATUS answers, under any well-formed layout, a valid frame with code 'v' that holds the current channel's frequency,
the current power twice, the lock and pit-mode flags clear, and 0 elsewhere in the payload (42_dispatch.md R113,
30_encoding.md R69).  The layout is a parameter (the spec's decision D10, log 10); the flag and fill bytes are its
decisions D9 and D11 (log 13), and the code value is its decision D7 (log 12). -/
def Obligations.StatusReportsFrequencyAndPower : Prop :=
  ∀ (p : Payload) (s : State), s.params.vReplyLayout.wf = true →
    ∃ f : Buffer,
      f[0] = 0x0F ∧ f[1] = 0x76 ∧ isValid f = true ∧
      memRead2 f s.params.vReplyLayout.freq = chanFreq s.params s.cfgChannel ∧
      memRead2 f s.params.vReplyLayout.setPower = powVal s.params s.cfgPower ∧
      memRead2 f s.params.vReplyLayout.actualPower = powVal s.params s.cfgPower ∧
      f[s.params.vReplyLayout.lock] = 0x00 ∧ f[s.params.vReplyLayout.pit] = 0x00 ∧
      (∀ (k : Nat) (h : k < 14), 2 ≤ k → k ∉ s.params.vReplyLayout.offsets → f[k] = 0x00) ∧
      ∀ (x : Option Byte) (fifo : List Byte) (rest : List EnvMove), ReplyEnv s x fifo rest →
        exec (.status p) s = .next (replied 0x76 f x fifo rest s)

/-- STATUS under the spec's default layout, byte by byte (30_encoding.md R69, 42_dispatch.md R113).  The layout is the spec's
decision D10 (log 10), the flag bytes 6 and 7 are its decision D11 and the fill bytes 10 to 13 its decision D9 (log 13), and
the code value is its decision D7 (log 12). -/
def Obligations.StatusDefaultLayoutBytes : Prop :=
  ∀ (p : Payload) (s : State) (f : Buffer) (x : Option Byte) (fifo : List Byte) (rest : List EnvMove),
    s.params.vReplyLayout = { freq := .at2, setPower := .at4, lock := 6, pit := 7, actualPower := .at8 } →
    f[0] = 0x0F → f[1] = 0x76 →
    f[2].toNat = (chanFreq s.params s.cfgChannel).toNat % 256 → f[3].toNat = (chanFreq s.params s.cfgChannel).toNat / 256 →
    f[4].toNat = (powVal s.params s.cfgPower).toNat % 256 → f[5].toNat = (powVal s.params s.cfgPower).toNat / 256 →
    f[6] = 0x00 → f[7] = 0x00 → f[8] = f[4] → f[9] = f[5] →
    f[10] = 0x00 → f[11] = 0x00 → f[12] = 0x00 → f[13] = 0x00 →
    f[14] = 0x76 + f[2] + f[3] + f[4] + f[5] + f[8] + f[9] → f[15] = 0x00 →
    ReplyEnv s x fifo rest →
    exec (.status p) s = .next (replied 0x76 f x fifo rest s)

/-- SETFREQ of a frequency the channel table holds at least index `i` writes `cfg_channel` and then calls the driver with
`i`, once, even when the channel is already `i`; no reply, no `busy`, no drain (42_dispatch.md R116, R117).  That the least
index wins in a table with repeats is the spec's decision D16 (log 26); the code value is its decision D7 (log 12). -/
def Obligations.SetFreqMatchTunesChannel : Prop :=
  ∀ (freq : Half) (other : PayloadRest) (s : State) (i : Byte) (a : List Byte) (r : List EnvMove),
    i.toNat < 10 → s.params.channelTable.toList[i.toNat]? = some freq →
    (∀ k, k < i.toNat → s.params.channelTable.toList[k]? ≠ some freq) → takeTurns 2 s.script = .ok (a, r) →
    exec (.setFreq freq other) s = .next { s with
      cfgChannel := i, rxFifo := s.rxFifo ++ a, script := r,
      trace := s.trace ++ [.cfgChannel i, .applyChannel i, .diag .cmdProcessed 0x46] }

/-- SETFREQ of a frequency in no table entry changes nothing and calls nothing; it still signals CMD_PROCESSED
(42_dispatch.md R116, R120; the signal is the spec's decision D18, log 21, and the code value its decision D7, log 12). -/
def Obligations.SetFreqNoMatchChangesNothing : Prop :=
  ∀ (freq : Half) (other : PayloadRest) (s : State) (a : List Byte) (r : List EnvMove),
    freq ∉ s.params.channelTable.toList → takeTurns 1 s.script = .ok (a, r) →
    exec (.setFreq freq other) s = .next { s with
      rxFifo := s.rxFifo ++ a, script := r, trace := s.trace ++ [.diag .cmdProcessed 0x46] }

/-- SETPOWER answers its constant acknowledgement whatever the request, its checksum over the code and the 12 bytes; the
configuration does not change (42_dispatch.md R118, 30_encoding.md R70; the acknowledgement bytes are open in the spec,
decision D13, log 11, and the statement holds for every value; the code value is the spec's decision D7, log 12). -/
def Obligations.SetPowerAcknowledgesOnly : Prop :=
  ∀ (p : Payload) (s : State) (k : Payload) (x : Option Byte) (fifo : List Byte) (rest : List EnvMove),
    s.params.sAckPayload = k → ReplyEnv s x fifo rest →
    exec (.setPower p) s = .next (replied 0x73
      #v[0x0F, 0x73, k[0], k[1], k[2], k[3], k[4], k[5], k[6], k[7], k[8], k[9], k[10], k[11],
        0x73 + k[0] + k[1] + k[2] + k[3] + k[4] + k[5] + k[6] + k[7] + k[8] + k[9] + k[10] + k[11], 0x00] x fifo rest s)

/-- OTHER has no effect but the CMD_IGNORED signal with its code: no reply, no drain, no configuration change, no driver
call (42_dispatch.md R119). -/
def Obligations.OtherCodeOnlySignals : Prop :=
  ∀ (code : Byte) (p : Payload) (s : State) (a : List Byte) (r : List EnvMove),
    takeTurns 1 s.script = .ok (a, r) →
    exec (.other code p) s = .next { s with
      rxFifo := s.rxFifo ++ a, script := r, trace := s.trace ++ [.diag .cmdIgnored code] }

/-! ## Frames -/

/-- Frame of the replying arms RANGE, STATUS and SETPOWER, under any environment: the receiver, every byte of `rxbuf`, the
configuration store and the parameters are unchanged; `txbuf` then holds the arm's finalised frame, whatever it held
before; `busy` is clear, and the trace is only extended (42_dispatch.md R111 to R113, R118, R121, 43_reply_transmit.md
R138). -/
def Obligations.ReplyArmsFrame : Prop :=
  ∀ (p : Payload) (s t : State),
    (exec (.range p) s = .next t → t.txbuf = finalizeBuffer rangeBody) ∧
    (exec (.status p) s = .next t → t.txbuf = finalizeBuffer
      (statusBody s.params.vReplyLayout (chanFreq s.params s.cfgChannel) (powVal s.params s.cfgPower))) ∧
    (exec (.setPower p) s = .next t → t.txbuf = finalizeBuffer (setPowerBody s.params.sAckPayload)) ∧
    ((exec (.range p) s = .next t ∨ exec (.status p) s = .next t ∨ exec (.setPower p) s = .next t) →
      t.rxState = s.rxState ∧ t.cursor = s.cursor ∧ (∀ (k : Nat) (h : k < 16), t.rxbuf[k] = s.rxbuf[k]) ∧
      t.busy = false ∧ t.passRunning = s.passRunning ∧ t.cfgChannel = s.cfgChannel ∧ t.cfgPower = s.cfgPower ∧
      t.params = s.params ∧ (∃ es, t.trace = s.trace ++ es) ∧ isValid t.txbuf = true)

/-- Frame of SETFREQ under any environment: nothing but `cfg_channel` (on a match) changes, no byte of either buffer among
it; nothing is popped from the FIFO (42_dispatch.md R116, R121). -/
def Obligations.SetFreqFrame : Prop :=
  ∀ (freq : Half) (other : PayloadRest) (s t : State), exec (.setFreq freq other) s = .next t →
    t.rxState = s.rxState ∧ t.cursor = s.cursor ∧ (∀ (k : Nat) (h : k < 16), t.rxbuf[k] = s.rxbuf[k]) ∧
    (∀ (k : Nat) (h : k < 16), t.txbuf[k] = s.txbuf[k]) ∧ t.busy = s.busy ∧ t.passRunning = s.passRunning ∧
    t.cfgPower = s.cfgPower ∧ t.params = s.params ∧
    (∃ es, t.trace = s.trace ++ es ∧ poppedBytes es = [] ∧ sentBytes es = []) ∧ (∃ a, t.rxFifo = s.rxFifo ++ a) ∧
    (freq ∉ s.params.channelTable.toList → t.cfgChannel = s.cfgChannel) ∧
    (freq ∈ s.params.channelTable.toList → chanFreq s.params t.cfgChannel = freq)

/-- Frame of OTHER under any environment: nothing of the block or of the configuration store changes, no byte of either
buffer among it (42_dispatch.md R119, R121). -/
def Obligations.OtherCodeFrame : Prop :=
  ∀ (code : Byte) (p : Payload) (s t : State), exec (.other code p) s = .next t →
    t.rxState = s.rxState ∧ t.cursor = s.cursor ∧ (∀ (k : Nat) (h : k < 16), t.rxbuf[k] = s.rxbuf[k]) ∧
    (∀ (k : Nat) (h : k < 16), t.txbuf[k] = s.txbuf[k]) ∧ t.busy = s.busy ∧ t.passRunning = s.passRunning ∧
    t.cfgChannel = s.cfgChannel ∧ t.cfgPower = s.cfgPower ∧ t.params = s.params ∧
    (∃ es, t.trace = s.trace ++ es ∧ poppedBytes es = [] ∧ sentBytes es = []) ∧ ∃ a, t.rxFifo = s.rxFifo ++ a

/-- Every dispatch ends with exactly one diagnostic event: CMD_PROCESSED for the four commands and CMD_IGNORED for any
other code, with the code as its argument, after the reply and the drain read (42_dispatch.md R120, 60_exceptions.md
R144, 42_dispatch.md R110, 30_encoding.md R63; the event names are the spec's decision D18, log 21, and the four code values
its decision D7, log 12). -/
def Obligations.DispatchSignalsOnceAtEnd : Prop :=
  ∀ (f : Buffer) (i : Instr) (s t : State), decodeFrame f = .ok i → exec i s = .next t →
    ∃ es, t.trace = s.trace ++ es ++
        [.diag (if f[1] ∈ ([0x72, 0x76, 0x46, 0x73] : List Byte) then .cmdProcessed else .cmdIgnored) f[1]] ∧
      ∀ e x, Event.diag e x ∉ es

/-- A dispatch makes at most one reply (16 bytes sent, or none) and at most one driver call, never both, and takes at most
one byte from the FIFO, only with a reply (42_dispatch.md R110, 43_reply_transmit.md R137, R138). -/
def Obligations.DispatchRepliesOrTunesAtMostOnce : Prop :=
  ∀ (i : Instr) (s t : State), exec i s = .next t →
    ∃ es, t.trace = s.trace ++ es ∧
      (((sentBytes es).length = 16 ∧ es.filterMap applyPort = [] ∧ (poppedBytes es).length ≤ 1) ∨
        (sentBytes es = [] ∧ (es.filterMap applyPort).length ≤ 1 ∧ poppedBytes es = []))

/-- A duty that the environment breaks in a turn of a dispatch is a fault: in a reply arm up to the drain's `Avail`, in the
drain's `ReadByte` when a byte waits, or before the result event; in SETFREQ before the driver call or the event; in OTHER
before the event (60_exceptions.md R148, 42_dispatch.md R112, R113, R116, R118, R119; the turns are log 2). -/
def Obligations.BrokenDutyDuringDispatchFaults : Prop :=
  (∀ (p : Payload) (s : State) (f : Fault), ReplyBroken s f →
    exec (.range p) s = .fault f ∧ exec (.status p) s = .fault f ∧ exec (.setPower p) s = .fault f) ∧
  (∀ (freq : Half) (other : PayloadRest) (s : State) (f : Fault),
    (freq ∈ s.params.channelTable.toList → takeTurns 2 s.script = .error f → exec (.setFreq freq other) s = .fault f) ∧
    (freq ∉ s.params.channelTable.toList → takeTurns 1 s.script = .error f → exec (.setFreq freq other) s = .fault f)) ∧
  ∀ (code : Byte) (p : Payload) (s : State) (f : Fault), takeTurns 1 s.script = .error f →
    exec (.other code p) s = .fault f
end

