-- ==== Sys2Proof/Laws/State.lean ====
section
/-! SUPPORT. One lemma per field and per update of State, true by rfl, so that no proof unfolds an update. -/

namespace Sys2Proof.Machine

@[simp] theorem emit_rxState (e : Event) (s : State) : (emit e s).rxState = s.rxState := rfl
@[simp] theorem emit_cursor (e : Event) (s : State) : (emit e s).cursor = s.cursor := rfl
@[simp] theorem emit_rxbuf (e : Event) (s : State) : (emit e s).rxbuf = s.rxbuf := rfl
@[simp] theorem emit_txbuf (e : Event) (s : State) : (emit e s).txbuf = s.txbuf := rfl
@[simp] theorem emit_busy (e : Event) (s : State) : (emit e s).busy = s.busy := rfl
@[simp] theorem emit_passRunning (e : Event) (s : State) : (emit e s).passRunning = s.passRunning := rfl
@[simp] theorem emit_cfgChannel (e : Event) (s : State) : (emit e s).cfgChannel = s.cfgChannel := rfl
@[simp] theorem emit_cfgPower (e : Event) (s : State) : (emit e s).cfgPower = s.cfgPower := rfl
@[simp] theorem emit_params (e : Event) (s : State) : (emit e s).params = s.params := rfl
@[simp] theorem emit_rxFifo (e : Event) (s : State) : (emit e s).rxFifo = s.rxFifo := rfl
@[simp] theorem emit_trace (e : Event) (s : State) : (emit e s).trace = s.trace ++ [e] := rfl
@[simp] theorem emit_script (e : Event) (s : State) : (emit e s).script = s.script := rfl

@[simp] theorem arrived_rxState (bytes : List Byte) (rest : List EnvMove) (s : State) : (arrived bytes rest s).rxState = s.rxState := rfl
@[simp] theorem arrived_cursor (bytes : List Byte) (rest : List EnvMove) (s : State) : (arrived bytes rest s).cursor = s.cursor := rfl
@[simp] theorem arrived_rxbuf (bytes : List Byte) (rest : List EnvMove) (s : State) : (arrived bytes rest s).rxbuf = s.rxbuf := rfl
@[simp] theorem arrived_txbuf (bytes : List Byte) (rest : List EnvMove) (s : State) : (arrived bytes rest s).txbuf = s.txbuf := rfl
@[simp] theorem arrived_busy (bytes : List Byte) (rest : List EnvMove) (s : State) : (arrived bytes rest s).busy = s.busy := rfl
@[simp] theorem arrived_passRunning (bytes : List Byte) (rest : List EnvMove) (s : State) : (arrived bytes rest s).passRunning = s.passRunning := rfl
@[simp] theorem arrived_cfgChannel (bytes : List Byte) (rest : List EnvMove) (s : State) : (arrived bytes rest s).cfgChannel = s.cfgChannel := rfl
@[simp] theorem arrived_cfgPower (bytes : List Byte) (rest : List EnvMove) (s : State) : (arrived bytes rest s).cfgPower = s.cfgPower := rfl
@[simp] theorem arrived_params (bytes : List Byte) (rest : List EnvMove) (s : State) : (arrived bytes rest s).params = s.params := rfl
@[simp] theorem arrived_rxFifo (bytes : List Byte) (rest : List EnvMove) (s : State) : (arrived bytes rest s).rxFifo = s.rxFifo ++ bytes := rfl
@[simp] theorem arrived_trace (bytes : List Byte) (rest : List EnvMove) (s : State) : (arrived bytes rest s).trace = s.trace := rfl
@[simp] theorem arrived_script (bytes : List Byte) (rest : List EnvMove) (s : State) : (arrived bytes rest s).script = rest := rfl

@[simp] theorem setFifo_rxState (fifo : List Byte) (s : State) : (setFifo fifo s).rxState = s.rxState := rfl
@[simp] theorem setFifo_cursor (fifo : List Byte) (s : State) : (setFifo fifo s).cursor = s.cursor := rfl
@[simp] theorem setFifo_rxbuf (fifo : List Byte) (s : State) : (setFifo fifo s).rxbuf = s.rxbuf := rfl
@[simp] theorem setFifo_txbuf (fifo : List Byte) (s : State) : (setFifo fifo s).txbuf = s.txbuf := rfl
@[simp] theorem setFifo_busy (fifo : List Byte) (s : State) : (setFifo fifo s).busy = s.busy := rfl
@[simp] theorem setFifo_passRunning (fifo : List Byte) (s : State) : (setFifo fifo s).passRunning = s.passRunning := rfl
@[simp] theorem setFifo_cfgChannel (fifo : List Byte) (s : State) : (setFifo fifo s).cfgChannel = s.cfgChannel := rfl
@[simp] theorem setFifo_cfgPower (fifo : List Byte) (s : State) : (setFifo fifo s).cfgPower = s.cfgPower := rfl
@[simp] theorem setFifo_params (fifo : List Byte) (s : State) : (setFifo fifo s).params = s.params := rfl
@[simp] theorem setFifo_rxFifo (fifo : List Byte) (s : State) : (setFifo fifo s).rxFifo = fifo := rfl
@[simp] theorem setFifo_trace (fifo : List Byte) (s : State) : (setFifo fifo s).trace = s.trace := rfl
@[simp] theorem setFifo_script (fifo : List Byte) (s : State) : (setFifo fifo s).script = s.script := rfl

@[simp] theorem setBusy_rxState (v : Bool) (s : State) : (setBusy v s).rxState = s.rxState := rfl
@[simp] theorem setBusy_cursor (v : Bool) (s : State) : (setBusy v s).cursor = s.cursor := rfl
@[simp] theorem setBusy_rxbuf (v : Bool) (s : State) : (setBusy v s).rxbuf = s.rxbuf := rfl
@[simp] theorem setBusy_txbuf (v : Bool) (s : State) : (setBusy v s).txbuf = s.txbuf := rfl
@[simp] theorem setBusy_busy (v : Bool) (s : State) : (setBusy v s).busy = v := rfl
@[simp] theorem setBusy_passRunning (v : Bool) (s : State) : (setBusy v s).passRunning = s.passRunning := rfl
@[simp] theorem setBusy_cfgChannel (v : Bool) (s : State) : (setBusy v s).cfgChannel = s.cfgChannel := rfl
@[simp] theorem setBusy_cfgPower (v : Bool) (s : State) : (setBusy v s).cfgPower = s.cfgPower := rfl
@[simp] theorem setBusy_params (v : Bool) (s : State) : (setBusy v s).params = s.params := rfl
@[simp] theorem setBusy_rxFifo (v : Bool) (s : State) : (setBusy v s).rxFifo = s.rxFifo := rfl
@[simp] theorem setBusy_trace (v : Bool) (s : State) : (setBusy v s).trace = s.trace ++ [.busy v] := rfl
@[simp] theorem setBusy_script (v : Bool) (s : State) : (setBusy v s).script = s.script := rfl

@[simp] theorem writeCfgChannel_rxState (i : Byte) (s : State) : (writeCfgChannel i s).rxState = s.rxState := rfl
@[simp] theorem writeCfgChannel_cursor (i : Byte) (s : State) : (writeCfgChannel i s).cursor = s.cursor := rfl
@[simp] theorem writeCfgChannel_rxbuf (i : Byte) (s : State) : (writeCfgChannel i s).rxbuf = s.rxbuf := rfl
@[simp] theorem writeCfgChannel_txbuf (i : Byte) (s : State) : (writeCfgChannel i s).txbuf = s.txbuf := rfl
@[simp] theorem writeCfgChannel_busy (i : Byte) (s : State) : (writeCfgChannel i s).busy = s.busy := rfl
@[simp] theorem writeCfgChannel_passRunning (i : Byte) (s : State) : (writeCfgChannel i s).passRunning = s.passRunning := rfl
@[simp] theorem writeCfgChannel_cfgChannel (i : Byte) (s : State) : (writeCfgChannel i s).cfgChannel = i := rfl
@[simp] theorem writeCfgChannel_cfgPower (i : Byte) (s : State) : (writeCfgChannel i s).cfgPower = s.cfgPower := rfl
@[simp] theorem writeCfgChannel_params (i : Byte) (s : State) : (writeCfgChannel i s).params = s.params := rfl
@[simp] theorem writeCfgChannel_rxFifo (i : Byte) (s : State) : (writeCfgChannel i s).rxFifo = s.rxFifo := rfl
@[simp] theorem writeCfgChannel_trace (i : Byte) (s : State) : (writeCfgChannel i s).trace = s.trace ++ [.cfgChannel i] := rfl
@[simp] theorem writeCfgChannel_script (i : Byte) (s : State) : (writeCfgChannel i s).script = s.script := rfl

@[simp] theorem resync_rxState (s : State) : (resync s).rxState = .awaitingHeader := rfl
@[simp] theorem resync_cursor (s : State) : (resync s).cursor = 0 := rfl
@[simp] theorem resync_rxbuf (s : State) : (resync s).rxbuf = s.rxbuf := rfl
@[simp] theorem resync_txbuf (s : State) : (resync s).txbuf = s.txbuf := rfl
@[simp] theorem resync_busy (s : State) : (resync s).busy = s.busy := rfl
@[simp] theorem resync_passRunning (s : State) : (resync s).passRunning = s.passRunning := rfl
@[simp] theorem resync_cfgChannel (s : State) : (resync s).cfgChannel = s.cfgChannel := rfl
@[simp] theorem resync_cfgPower (s : State) : (resync s).cfgPower = s.cfgPower := rfl
@[simp] theorem resync_params (s : State) : (resync s).params = s.params := rfl
@[simp] theorem resync_rxFifo (s : State) : (resync s).rxFifo = s.rxFifo := rfl
@[simp] theorem resync_trace (s : State) : (resync s).trace = s.trace := rfl
@[simp] theorem resync_script (s : State) : (resync s).script = s.script := rfl

@[simp] theorem appendByte_rxState (b : Byte) (s : State) : (appendByte b s).rxState = s.rxState := rfl
@[simp] theorem appendByte_cursor (b : Byte) (s : State) : (appendByte b s).cursor = s.cursor := rfl
@[simp] theorem appendByte_rxbuf (b : Byte) (s : State) : (appendByte b s).rxbuf = putAt s.rxbuf s.cursor b := rfl
@[simp] theorem appendByte_txbuf (b : Byte) (s : State) : (appendByte b s).txbuf = s.txbuf := rfl
@[simp] theorem appendByte_busy (b : Byte) (s : State) : (appendByte b s).busy = s.busy := rfl
@[simp] theorem appendByte_passRunning (b : Byte) (s : State) : (appendByte b s).passRunning = s.passRunning := rfl
@[simp] theorem appendByte_cfgChannel (b : Byte) (s : State) : (appendByte b s).cfgChannel = s.cfgChannel := rfl
@[simp] theorem appendByte_cfgPower (b : Byte) (s : State) : (appendByte b s).cfgPower = s.cfgPower := rfl
@[simp] theorem appendByte_params (b : Byte) (s : State) : (appendByte b s).params = s.params := rfl
@[simp] theorem appendByte_rxFifo (b : Byte) (s : State) : (appendByte b s).rxFifo = s.rxFifo := rfl
@[simp] theorem appendByte_trace (b : Byte) (s : State) : (appendByte b s).trace = s.trace := rfl
@[simp] theorem appendByte_script (b : Byte) (s : State) : (appendByte b s).script = s.script := rfl

@[simp] theorem goTo_rxState (r : RxState) (next : BitVec 5) (s : State) : (goTo r next s).rxState = r := rfl
@[simp] theorem goTo_cursor (r : RxState) (next : BitVec 5) (s : State) : (goTo r next s).cursor = storedCursor next := rfl
@[simp] theorem goTo_rxbuf (r : RxState) (next : BitVec 5) (s : State) : (goTo r next s).rxbuf = s.rxbuf := rfl
@[simp] theorem goTo_txbuf (r : RxState) (next : BitVec 5) (s : State) : (goTo r next s).txbuf = s.txbuf := rfl
@[simp] theorem goTo_busy (r : RxState) (next : BitVec 5) (s : State) : (goTo r next s).busy = s.busy := rfl
@[simp] theorem goTo_passRunning (r : RxState) (next : BitVec 5) (s : State) : (goTo r next s).passRunning = s.passRunning := rfl
@[simp] theorem goTo_cfgChannel (r : RxState) (next : BitVec 5) (s : State) : (goTo r next s).cfgChannel = s.cfgChannel := rfl
@[simp] theorem goTo_cfgPower (r : RxState) (next : BitVec 5) (s : State) : (goTo r next s).cfgPower = s.cfgPower := rfl
@[simp] theorem goTo_params (r : RxState) (next : BitVec 5) (s : State) : (goTo r next s).params = s.params := rfl
@[simp] theorem goTo_rxFifo (r : RxState) (next : BitVec 5) (s : State) : (goTo r next s).rxFifo = s.rxFifo := rfl
@[simp] theorem goTo_trace (r : RxState) (next : BitVec 5) (s : State) : (goTo r next s).trace = s.trace := rfl
@[simp] theorem goTo_script (r : RxState) (next : BitVec 5) (s : State) : (goTo r next s).script = s.script := rfl

@[simp] theorem loadTx_rxState (body : Buffer) (s : State) : (loadTx body s).rxState = s.rxState := rfl
@[simp] theorem loadTx_cursor (body : Buffer) (s : State) : (loadTx body s).cursor = s.cursor := rfl
@[simp] theorem loadTx_rxbuf (body : Buffer) (s : State) : (loadTx body s).rxbuf = s.rxbuf := rfl
@[simp] theorem loadTx_txbuf (body : Buffer) (s : State) : (loadTx body s).txbuf = body := rfl
@[simp] theorem loadTx_busy (body : Buffer) (s : State) : (loadTx body s).busy = s.busy := rfl
@[simp] theorem loadTx_passRunning (body : Buffer) (s : State) : (loadTx body s).passRunning = s.passRunning := rfl
@[simp] theorem loadTx_cfgChannel (body : Buffer) (s : State) : (loadTx body s).cfgChannel = s.cfgChannel := rfl
@[simp] theorem loadTx_cfgPower (body : Buffer) (s : State) : (loadTx body s).cfgPower = s.cfgPower := rfl
@[simp] theorem loadTx_params (body : Buffer) (s : State) : (loadTx body s).params = s.params := rfl
@[simp] theorem loadTx_rxFifo (body : Buffer) (s : State) : (loadTx body s).rxFifo = s.rxFifo := rfl
@[simp] theorem loadTx_trace (body : Buffer) (s : State) : (loadTx body s).trace = s.trace := rfl
@[simp] theorem loadTx_script (body : Buffer) (s : State) : (loadTx body s).script = s.script := rfl

@[simp] theorem finalize_rxState (s : State) : (finalize s).rxState = s.rxState := rfl
@[simp] theorem finalize_cursor (s : State) : (finalize s).cursor = s.cursor := rfl
@[simp] theorem finalize_rxbuf (s : State) : (finalize s).rxbuf = s.rxbuf := rfl
@[simp] theorem finalize_txbuf (s : State) : (finalize s).txbuf = finalizeBuffer s.txbuf := rfl
@[simp] theorem finalize_busy (s : State) : (finalize s).busy = s.busy := rfl
@[simp] theorem finalize_passRunning (s : State) : (finalize s).passRunning = s.passRunning := rfl
@[simp] theorem finalize_cfgChannel (s : State) : (finalize s).cfgChannel = s.cfgChannel := rfl
@[simp] theorem finalize_cfgPower (s : State) : (finalize s).cfgPower = s.cfgPower := rfl
@[simp] theorem finalize_params (s : State) : (finalize s).params = s.params := rfl
@[simp] theorem finalize_rxFifo (s : State) : (finalize s).rxFifo = s.rxFifo := rfl
@[simp] theorem finalize_trace (s : State) : (finalize s).trace = s.trace := rfl
@[simp] theorem finalize_script (s : State) : (finalize s).script = s.script := rfl

@[simp] theorem endPass_rxState (s : State) : (endPass s).rxState = s.rxState := rfl
@[simp] theorem endPass_cursor (s : State) : (endPass s).cursor = s.cursor := rfl
@[simp] theorem endPass_rxbuf (s : State) : (endPass s).rxbuf = s.rxbuf := rfl
@[simp] theorem endPass_txbuf (s : State) : (endPass s).txbuf = s.txbuf := rfl
@[simp] theorem endPass_busy (s : State) : (endPass s).busy = s.busy := rfl
@[simp] theorem endPass_passRunning (s : State) : (endPass s).passRunning = false := rfl
@[simp] theorem endPass_cfgChannel (s : State) : (endPass s).cfgChannel = s.cfgChannel := rfl
@[simp] theorem endPass_cfgPower (s : State) : (endPass s).cfgPower = s.cfgPower := rfl
@[simp] theorem endPass_params (s : State) : (endPass s).params = s.params := rfl
@[simp] theorem endPass_rxFifo (s : State) : (endPass s).rxFifo = s.rxFifo := rfl
@[simp] theorem endPass_trace (s : State) : (endPass s).trace = s.trace := rfl
@[simp] theorem endPass_script (s : State) : (endPass s).script = s.script := rfl

end Sys2Proof.Machine
end

