-- ==== Sys2Proof/Laws/Buffers.lean ====
section
/-! SUPPORT. The laws of buffers: reads after writes, what a write leaves alone, the checksum as a sum, and the frames that
FINALIZE makes. -/

namespace Sys2Proof.Machine

/-! ### Little-endian fields -/

theorem le16_toNat (lo hi : Byte) : (le16 lo hi).toNat = lo.toNat + 256 * hi.toNat := by
  have hlo := lo.isLt
  have hhi := hi.isLt
  have hdisj : lo.setWidth 16 &&& (hi.setWidth 16 <<< 8) = 0#16 := by
    ext i hi'
    simp only [BitVec.getElem_and, BitVec.getElem_setWidth, BitVec.getElem_shiftLeft, BitVec.getElem_zero]
    by_cases h : i < 8
    · simp [h]
    · simp [BitVec.getLsbD_of_ge lo i (by omega)]
  rw [le16, ← BitVec.add_eq_or_of_and_eq_zero _ _ hdisj]
  simp only [BitVec.toNat_add, BitVec.toNat_setWidth, BitVec.toNat_shiftLeft, Nat.shiftLeft_eq]
  omega

theorem loByte_toNat (v : Half) : (loByte v).toNat = v.toNat % 256 := by
  simp [loByte]

theorem hiByte_toNat (v : Half) : (hiByte v).toNat = v.toNat / 256 := by
  have := v.isLt
  simp only [hiByte, BitVec.extractLsb'_toNat, Nat.shiftRight_eq_div_pow]
  omega

@[simp] theorem le16_lo_hi (v : Half) : le16 (loByte v) (hiByte v) = v := by
  apply BitVec.eq_of_toNat_eq
  rw [le16_toNat, loByte_toNat, hiByte_toNat]
  omega

@[simp] theorem loByte_le16 (lo hi : Byte) : loByte (le16 lo hi) = lo := by
  apply BitVec.eq_of_toNat_eq
  have := lo.isLt
  rw [loByte_toNat, le16_toNat]
  omega

@[simp] theorem hiByte_le16 (lo hi : Byte) : hiByte (le16 lo hi) = hi := by
  apply BitVec.eq_of_toNat_eq
  have := lo.isLt
  rw [hiByte_toNat, le16_toNat]
  omega

/-! ### One write -/

/-- A 16-bit field stands at an even offset, inside the payload (20_memory.md R44, 30_encoding.md R61). -/
theorem halfOffset_aligned (off : HalfOffset) :
    (halfOffset off).val % 2 = 0 ∧ 2 ≤ (halfOffset off).val ∧ (halfOffset off).val ≤ 12 := by
  cases off <;> decide

theorem memWrite1_get (buf : Buffer) (off : Fin 16) (v : Byte) (k : Nat) (h : k < 16) :
    (memWrite1 buf off v)[k] = if off.val = k then v else buf[k] := by
  simp [memWrite1, Vector.getElem_set]

theorem memWrite2_get (buf : Buffer) (off : HalfOffset) (v : Half) (k : Nat) (h : k < 16) :
    (memWrite2 buf off v)[k] =
      if (halfOffset off).val + 1 = k then hiByte v else if (halfOffset off).val = k then loByte v else buf[k] := by
  simp [memWrite2, memWrite1_get]

theorem memRead2_eq (buf : Buffer) (off : HalfOffset) :
    memRead2 buf off = le16 buf[(halfOffset off).val] buf[(halfOffset off).val + 1] := by
  simp [memRead2, memRead1]

@[simp] theorem memRead2_memWrite2 (buf : Buffer) (off : HalfOffset) (v : Half) :
    memRead2 (memWrite2 buf off v) off = v := by
  simp [memRead2_eq, memWrite2_get]

theorem putAt_get (buf : Buffer) (c : BitVec 4) (b : Byte) (k : Nat) (h : k < 16) :
    (putAt buf c b)[k] = if c.toNat = k then b else buf[k] := by
  simp [putAt, Vector.getElem_set]

/-- Two buffers are equal when their 16 bytes are. -/
theorem buffer_ext {f g : Buffer} (h : ∀ (k : Nat) (hk : k < 16), f[k] = g[k]) : f = g := Vector.ext h

/-! ### The checksum -/

/-- The checksum as the sum of the thirteen bytes. -/
theorem checksum_eq (f : Buffer) :
    checksum f = f[1] + f[2] + f[3] + f[4] + f[5] + f[6] + f[7] + f[8] + f[9] + f[10] + f[11] + f[12] + f[13] := by
  simp [checksum, csumOffsets]

/-- The checksum reads bytes 1 to 13 alone. -/
theorem checksum_congr {f g : Buffer} (h : ∀ (k : Nat) (hk : k < 16), 1 ≤ k → k ≤ 13 → f[k] = g[k]) :
    checksum f = checksum g := by
  simp only [checksum_eq]
  rw [h 1, h 2, h 3, h 4, h 5, h 6, h 7, h 8, h 9, h 10, h 11, h 12, h 13] <;> omega

theorem finalizeBuffer_get (f : Buffer) (k : Nat) (h : k < 16) :
    (finalizeBuffer f)[k] = if k = 15 then trailerByte else if k = 14 then checksum f else f[k] := by
  have h14 : (14 : Fin 16).val = 14 := rfl
  have h15 : (15 : Fin 16).val = 15 := rfl
  simp only [finalizeBuffer, memWrite1_get, h14, h15, eq_comm (b := k)]

@[simp] theorem checksum_finalizeBuffer (f : Buffer) : checksum (finalizeBuffer f) = checksum f :=
  checksum_congr fun k hk h1 h2 => by
    rw [finalizeBuffer_get, if_neg (by omega), if_neg (by omega)]

@[simp] theorem isValid_finalizeBuffer (f : Buffer) : isValid (finalizeBuffer f) = true := by
  simp [isValid, finalizeBuffer_get]

/-! ### Frames -/

theorem frame_get_zero (code : Byte) (p : Payload) : (frame code p)[0] = headerByte := by
  simp [frame, finalizeBuffer_get, frameBody]

@[simp] theorem frame_get_one (code : Byte) (p : Payload) : (frame code p)[1] = code := by
  simp [frame, finalizeBuffer_get, frameBody]

theorem frame_get_payload (code : Byte) (p : Payload) (k : Nat) (h : k < 12) : (frame code p)[k + 2] = p[k] := by
  rw [frame, finalizeBuffer_get, if_neg (by omega), if_neg (by omega)]
  interval_cases k <;> rfl

theorem replyStart_get (code : Byte) (k : Nat) (h : k < 16) :
    (replyStart code)[k] = if k = 1 then code else if k = 0 then headerByte else fillByte := by
  simp only [replyStart, memWrite1_get, Vector.getElem_replicate]
  simp only [eq_comm (b := k)]
  rfl

/-- Every byte of a STATUS reply before FINALIZE: the last field written at an offset wins. -/
theorem statusBody_get (l : VReplyLayout) (freq pwr : Half) (k : Nat) (h : k < 16) :
    (statusBody l freq pwr)[k] =
      if (halfOffset l.actualPower).val + 1 = k then hiByte pwr else if (halfOffset l.actualPower).val = k then loByte pwr
      else if l.pit.val = k then pitFlag else if l.lock.val = k then lockFlag
      else if (halfOffset l.setPower).val + 1 = k then hiByte pwr else if (halfOffset l.setPower).val = k then loByte pwr
      else if (halfOffset l.freq).val + 1 = k then hiByte freq else if (halfOffset l.freq).val = k then loByte freq
      else if k = 1 then codeStatus else if k = 0 then headerByte else fillByte := by
  simp only [statusBody, memWrite2_get, memWrite1_get, replyStart_get]

/-- R118's loop of writes over REPLY_START makes the same body as `frameBody`. -/
theorem frameBody_eq_writes (code : Byte) (p : Payload) :
    frameBody code p =
      ([0, 1, 2, 3, 4, 5, 6, 7, 8, 9, 10, 11] : List (Fin 12)).foldl
        (fun buf k => memWrite1 buf ⟨2 + k.val, by omega⟩ p[k]) (replyStart code) := by
  apply buffer_ext
  intro k hk
  simp only [List.foldl, memWrite1_get, replyStart_get]
  interval_cases k <;> rfl

end Sys2Proof.Machine
end

