-- ==== Sys2Proof/Laws/Decode.lean ====
section
/-! SUPPORT. The decoder's table read as an if-chain, and the fields of a framed payload. -/

namespace Sys2Proof

open Sys2Proof.Machine

/-- The opcode table selects by equality with the four command codes. -/
theorem selectOpcode_eq (c : Byte) : selectOpcode c =
    if c = 0x72 then .range else if c = 0x76 then .status else if c = 0x46 then .setFreq
    else if c = 0x73 then .setPower else .other := by
  by_cases h1 : c = 0x72
  · subst h1; rfl
  by_cases h2 : c = 0x76
  · subst h2; rfl
  by_cases h3 : c = 0x46
  · subst h3; rfl
  by_cases h4 : c = 0x73
  · subst h4; rfl
  rw [if_neg h1, if_neg h2, if_neg h3, if_neg h4]
  simp only [selectOpcode, opcodeTable, List.find?, show (0xFF : Byte) = BitVec.allOnes 8 from rfl, BitVec.and_allOnes,
    beq_false_of_ne h1, beq_false_of_ne h2, beq_false_of_ne h3, beq_false_of_ne h4]
  simp

theorem decodeFrame_of_valid {f : Buffer} (h : isValid f = true) : decodeFrame f = .ok (instrOf f) := by
  simp [decodeFrame, h]

/-- Only a valid frame decodes, and to what its command byte selects. -/
theorem decodeFrame_ok {f : Buffer} {i : Instr} (h : decodeFrame f = .ok i) : isValid f = true ∧ i = instrOf f := by
  unfold decodeFrame at h
  split at h
  · rename_i hv
    exact ⟨hv, by simpa using h.symm⟩
  · split at h <;> simp at h

theorem decodeFrame_of_invalid {f : Buffer} (h : isValid f = false) : ∃ e, decodeFrame f = .error e := by
  unfold decodeFrame
  rw [if_neg (by simp [h])]
  split <;> exact ⟨_, rfl⟩

theorem payloadOf_get (f : Buffer) (k : Nat) (h : k < 12) : (payloadOf f)[k] = f[k + 2] := by
  interval_cases k <;> rfl

theorem payloadRestOf_get (f : Buffer) (k : Nat) (h : k < 10) : (payloadRestOf f)[k] = f[k + 4] := by
  interval_cases k <;> rfl

/-- A framed payload is read back whole. -/
theorem payloadOf_frame (c : Byte) (p : Payload) : payloadOf (frame c p) = p := by
  apply Vector.ext
  intro k hk
  rw [payloadOf_get _ _ hk, frame_get_payload c p k hk]

end Sys2Proof
end

