-- ==== Sys2Proof/Laws/Ops.lean ====
section
/-! SUPPORT. What each shared operation can do, said once: under turns in which the environment keeps its duties it answers
the next state named here, and a next state it answers is of that form. -/

namespace Sys2Proof.Machine

@[simp] theorem andThen_next (s : State) (k : State → Result) : andThen (.next s) k = k s := rfl

@[simp] theorem andThen_fault (f : Fault) (k : State → Result) : andThen (.fault f) k = .fault f := rfl

@[simp] theorem andThen_refused (r : Refusal) (k : State → Result) : andThen (.refused r) k = .refused r := rfl

theorem andThen_eq_next {r : Result} {k : State → Result} {t : State} :
    andThen r k = .next t ↔ ∃ s, r = .next s ∧ k s = .next t := by
  cases r <;> simp

theorem andThen_assoc (r : Result) (k l : State → Result) :
    andThen (andThen r k) l = andThen r (fun s => andThen (k s) l) := by
  cases r <;> rfl

/-! ### The environment's turn -/

/-- A turn's bytes are the arrivals among the moves it spends. -/
theorem takeTurn_arrivals {moves : List EnvMove} {a : List Byte} {r : List EnvMove}
    (h : takeTurn moves = .ok (a, r)) : ∃ spent, moves = spent ++ r ∧ a = arrivalsOf spent := by
  induction moves generalizing a with
  | nil => simp [takeTurn] at h; exact ⟨[], by simp [h, arrivalsOf]⟩
  | cons m ms ih =>
    cases m with
    | yield => simp [takeTurn] at h; exact ⟨[.yield], by simp [h, arrivalsOf]⟩
    | arrive b =>
      simp only [takeTurn] at h
      split at h
      · rename_i bytes rest heq
        obtain ⟨rfl, rfl⟩ : b :: bytes = a ∧ rest = r := by simpa using h
        obtain ⟨spent, rfl, rfl⟩ := ih heq
        exact ⟨.arrive b :: spent, by simp [arrivalsOf]⟩
      · simp at h
    | passReq => simp [takeTurn] at h
    | cfgChannel v => simp [takeTurn] at h
    | cfgPower v => simp [takeTurn] at h

/-- A turn breaks a duty by a store write or by a pass request, and in no other way. -/
theorem takeTurn_fault {moves : List EnvMove} {f : Fault} (h : takeTurn moves = .error f) :
    f = .cfgWriteDuringPass ∨ f = .passOverlap := by
  induction moves with
  | nil => simp [takeTurn] at h
  | cons m ms ih =>
    cases m with
    | yield => simp [takeTurn] at h
    | arrive b =>
      simp only [takeTurn] at h
      split at h
      · simp at h
      · rename_i heq
        exact ih (by rw [heq]; simpa using h)
    | passReq => simp [takeTurn] at h; exact .inr h.symm
    | cfgChannel v => simp [takeTurn] at h; exact .inl h.symm
    | cfgPower v => simp [takeTurn] at h; exact .inl h.symm

theorem takeTurns_one (moves : List EnvMove) : takeTurns 1 moves = takeTurn moves := by
  simp only [takeTurns]
  cases takeTurn moves with
  | error f => rfl
  | ok p => simp

/-- One turn and then `n` more. -/
theorem takeTurns_succ {n : Nat} {moves : List EnvMove} {a : List Byte} {r : List EnvMove} :
    takeTurns (n + 1) moves = .ok (a, r) ↔
      ∃ a1 r1 a2, takeTurn moves = .ok (a1, r1) ∧ takeTurns n r1 = .ok (a2, r) ∧ a = a1 ++ a2 := by
  simp only [takeTurns]
  constructor
  · intro h
    split at h
    · simp at h
    · rename_i a1 r1 h1
      split at h
      · simp at h
      · rename_i a2 r2 h2
        obtain ⟨rfl, rfl⟩ : a1 ++ a2 = a ∧ r2 = r := by simpa using h
        exact ⟨a1, r1, a2, h1, h2, rfl⟩
  · rintro ⟨a1, r1, a2, h1, h2, rfl⟩
    simp [h1, h2]

/-- `m` turns and then `n` more. -/
theorem takeTurns_add {m n : Nat} {moves : List EnvMove} {a : List Byte} {r : List EnvMove} :
    takeTurns (m + n) moves = .ok (a, r) ↔
      ∃ a1 r1 a2, takeTurns m moves = .ok (a1, r1) ∧ takeTurns n r1 = .ok (a2, r) ∧ a = a1 ++ a2 := by
  induction m generalizing moves a with
  | zero => simp [takeTurns]
  | succ m ih =>
    rw [Nat.add_right_comm, takeTurns_succ]
    constructor
    · rintro ⟨a1, r1, a2, h1, h2, rfl⟩
      obtain ⟨b1, q1, b2, g1, g2, rfl⟩ := ih.1 h2
      exact ⟨a1 ++ b1, q1, b2, takeTurns_succ.2 ⟨a1, r1, b1, h1, g1, rfl⟩, g2, by simp⟩
    · rintro ⟨a1, r1, a2, h1, h2, rfl⟩
      obtain ⟨b1, q1, b2, g1, g2, rfl⟩ := takeTurns_succ.1 h1
      exact ⟨b1, q1, b2 ++ a2, g1, ih.2 ⟨b2, r1, a2, g2, h2, rfl⟩, by simp⟩

/-- Turns that go well for longer go well for shorter. -/
theorem takeTurns_prefix {m n : Nat} {moves : List EnvMove} {p : List Byte × List EnvMove}
    (h : takeTurns (m + n) moves = .ok p) : ∃ a r, takeTurns m moves = .ok (a, r) := by
  obtain ⟨a, r⟩ := p
  obtain ⟨a1, r1, _, h1, _⟩ := takeTurns_add.1 h
  exact ⟨a1, r1, h1⟩

theorem envTurn_of_ok {s : State} {a : List Byte} {r : List EnvMove} (h : takeTurn s.script = .ok (a, r)) :
    envTurn s = .next (arrived a r s) := by
  simp [envTurn, h]

theorem envTurn_next {s t : State} (h : envTurn s = .next t) :
    ∃ a r, takeTurn s.script = .ok (a, r) ∧ t = arrived a r s := by
  unfold envTurn at h
  split at h
  · rename_i a r heq
    exact ⟨a, r, heq, by simpa using h.symm⟩
  · simp at h

theorem envTurn_of_error {s : State} {f : Fault} (h : takeTurn s.script = .error f) : envTurn s = .fault f := by
  simp [envTurn, h]

theorem envTurn_fault {s : State} {f : Fault} (h : envTurn s = .fault f) : takeTurn s.script = .error f := by
  unfold envTurn at h
  split at h
  · simp at h
  · rename_i heq
    simpa [heq] using h

/-! ### The primitives -/

theorem avail_of_ok {s : State} {a : List Byte} {r : List EnvMove} (h : takeTurn s.script = .ok (a, r))
    (k : Bool → State → Result) :
    avail s k = k (!(s.rxFifo ++ a).isEmpty) (emit (.avail (!(s.rxFifo ++ a).isEmpty)) (arrived a r s)) := by
  simp only [avail, envTurn_of_ok h, andThen_next, arrived_rxFifo]

theorem avail_next {s t : State} {k : Bool → State → Result} (h : avail s k = .next t) :
    ∃ a r, takeTurn s.script = .ok (a, r) ∧
      k (!(s.rxFifo ++ a).isEmpty) (emit (.avail (!(s.rxFifo ++ a).isEmpty)) (arrived a r s)) = .next t := by
  obtain ⟨u, h1, h2⟩ := andThen_eq_next.1 h
  obtain ⟨a, r, h3, rfl⟩ := envTurn_next h1
  exact ⟨a, r, h3, h2⟩

theorem readByte_of_ok {s : State} {a : List Byte} {r : List EnvMove} {b : Byte} {q : List Byte}
    (h : takeTurn s.script = .ok (a, r)) (hq : s.rxFifo ++ a = b :: q) (k : Byte → State → Result) :
    readByte s k = k b (emit (.readByte b) (setFifo q (arrived a r s))) := by
  simp only [readByte, envTurn_of_ok h, andThen_next, arrived_rxFifo, hq]

theorem readByte_next {s t : State} {k : Byte → State → Result} (h : readByte s k = .next t) :
    ∃ a r b q, takeTurn s.script = .ok (a, r) ∧ s.rxFifo ++ a = b :: q ∧
      k b (emit (.readByte b) (setFifo q (arrived a r s))) = .next t := by
  obtain ⟨u, h1, h2⟩ := andThen_eq_next.1 h
  obtain ⟨a, r, h3, rfl⟩ := envTurn_next h1
  simp only [arrived_rxFifo] at h2
  split at h2
  · simp at h2
  · rename_i b q hq
    exact ⟨a, r, b, q, h3, hq, h2⟩

theorem writeByte_of_ok {s : State} {a : List Byte} {r : List EnvMove} (b : Byte)
    (h : takeTurn s.script = .ok (a, r)) : writeByte b s = .next (emit (.writeByte b) (arrived a r s)) := by
  simp [writeByte, envTurn_of_ok h]

theorem writeByte_next {s t : State} {b : Byte} (h : writeByte b s = .next t) :
    ∃ a r, takeTurn s.script = .ok (a, r) ∧ t = emit (.writeByte b) (arrived a r s) := by
  obtain ⟨u, h1, h2⟩ := andThen_eq_next.1 h
  obtain ⟨a, r, h3, rfl⟩ := envTurn_next h1
  exact ⟨a, r, h3, by simpa using h2.symm⟩

theorem applyChannel_of_ok {s : State} {a : List Byte} {r : List EnvMove} (i : Byte)
    (h : takeTurn s.script = .ok (a, r)) :
    applyChannel i s = .next (emit (.applyChannel i) (arrived a r s)) := by
  simp [applyChannel, envTurn_of_ok h]

theorem applyChannel_next {s t : State} {i : Byte} (h : applyChannel i s = .next t) :
    ∃ a r, takeTurn s.script = .ok (a, r) ∧ t = emit (.applyChannel i) (arrived a r s) := by
  obtain ⟨u, h1, h2⟩ := andThen_eq_next.1 h
  obtain ⟨a, r, h3, rfl⟩ := envTurn_next h1
  exact ⟨a, r, h3, by simpa using h2.symm⟩

theorem delay_of_ok {s : State} {a : List Byte} {r : List EnvMove} (h : takeTurn s.script = .ok (a, r)) :
    delay s = .next (emit (.delay s.params.drainDelay) (arrived a r s)) := by
  simp [delay, envTurn_of_ok h]

theorem delay_next {s t : State} (h : delay s = .next t) :
    ∃ a r, takeTurn s.script = .ok (a, r) ∧ t = emit (.delay s.params.drainDelay) (arrived a r s) := by
  obtain ⟨u, h1, h2⟩ := andThen_eq_next.1 h
  obtain ⟨a, r, h3, rfl⟩ := envTurn_next h1
  exact ⟨a, r, h3, by simpa using h2.symm⟩

theorem diag_of_ok {s : State} {a : List Byte} {r : List EnvMove} (e : DiagEvent) (x : Byte)
    (h : takeTurn s.script = .ok (a, r)) : diag e x s = .next (emit (.diag e x) (arrived a r s)) := by
  simp [diag, envTurn_of_ok h]

theorem diag_next {s t : State} {e : DiagEvent} {x : Byte} (h : diag e x s = .next t) :
    ∃ a r, takeTurn s.script = .ok (a, r) ∧ t = emit (.diag e x) (arrived a r s) := by
  obtain ⟨u, h1, h2⟩ := andThen_eq_next.1 h
  obtain ⟨a, r, h3, rfl⟩ := envTurn_next h1
  exact ⟨a, r, h3, by simpa using h2.symm⟩

/-! ### The transmit sequence -/

/-- The state after some writes: the events, and what arrived meanwhile. -/
def wrote (bs : List Byte) (a : List Byte) (r : List EnvMove) (s : State) : State :=
  { s with rxFifo := s.rxFifo ++ a, script := r, trace := s.trace ++ bs.map .writeByte }

theorem writeBytes_of_ok (bs : List Byte) {s : State} {a : List Byte} {r : List EnvMove}
    (h : takeTurns bs.length s.script = .ok (a, r)) : writeBytes bs s = .next (wrote bs a r s) := by
  induction bs generalizing s a with
  | nil =>
    obtain ⟨rfl, rfl⟩ : [] = a ∧ s.script = r := by simpa [takeTurns] using h
    simp [writeBytes, wrote]
  | cons b bs ih =>
    obtain ⟨a1, r1, a2, h1, h2, rfl⟩ := takeTurns_succ.1 h
    simp only [writeBytes, writeByte_of_ok b h1, andThen_next]
    rw [ih (by simpa using h2)]
    simp [wrote, emit, arrived]

theorem writeBytes_next {bs : List Byte} {s t : State} (h : writeBytes bs s = .next t) :
    ∃ a r, takeTurns bs.length s.script = .ok (a, r) ∧ t = wrote bs a r s := by
  induction bs generalizing s with
  | nil =>
    refine ⟨[], s.script, rfl, ?_⟩
    simp only [writeBytes, Host.Outcome.next.injEq] at h
    simp [wrote, h]
  | cons b bs ih =>
    obtain ⟨u, h1, h2⟩ := andThen_eq_next.1 h
    obtain ⟨a1, r1, h3, rfl⟩ := writeByte_next h1
    obtain ⟨a2, r2, h4, rfl⟩ := ih h2
    exact ⟨a1 ++ a2, r2, takeTurns_succ.2 ⟨a1, r1, a2, h3, by simpa using h4, rfl⟩, by simp [wrote, emit, arrived]⟩

/-- The state after a drain read (43_reply_transmit.md R136). -/
def drained (x : Option Byte) (fifo : List Byte) (rest : List EnvMove) (s : State) : State :=
  { s with rxFifo := fifo, script := rest, trace := s.trace ++ drainEvents x }

theorem drainRead_none {s : State} {a : List Byte} {r : List EnvMove} (h : takeTurn s.script = .ok (a, r))
    (hq : s.rxFifo ++ a = []) : drainRead s = .next (drained none [] r s) := by
  simp only [drainRead, avail_of_ok h, hq]
  simp [drained, emit, arrived, hq, drainEvents]

theorem drainRead_some {s : State} {a1 a2 : List Byte} {r1 r2 : List EnvMove} {x : Byte} {q : List Byte}
    (h1 : takeTurn s.script = .ok (a1, r1)) (hq : s.rxFifo ++ a1 = x :: q) (h2 : takeTurn r1 = .ok (a2, r2)) :
    drainRead s = .next (drained (some x) (q ++ a2) r2 s) := by
  simp only [drainRead, avail_of_ok h1, hq, List.isEmpty_cons, Bool.not_false, if_true]
  rw [readByte_of_ok (a := a2) (r := r2) (b := x) (q := q ++ a2) (by simpa using h2) (by simp [hq])]
  simp [drained, emit, arrived, setFifo, drainEvents]

theorem drainRead_next {s t : State} (h : drainRead s = .next t) :
    ∃ a r, takeTurn s.script = .ok (a, r) ∧
      ((s.rxFifo ++ a = [] ∧ t = drained none [] r s) ∨
        ∃ x q a' r', s.rxFifo ++ a = x :: q ∧ takeTurn r = .ok (a', r') ∧ t = drained (some x) (q ++ a') r' s) := by
  obtain ⟨a, r, h1, h2⟩ := avail_next h
  refine ⟨a, r, h1, ?_⟩
  cases hq : s.rxFifo ++ a with
  | nil =>
    left
    refine ⟨rfl, ?_⟩
    simp only [hq, List.isEmpty_nil, Bool.not_true, Bool.false_eq_true, if_false, Host.Outcome.next.injEq] at h2
    rw [← h2]
    simp [drained, emit, arrived, hq, drainEvents]
  | cons x q =>
    right
    simp only [hq, List.isEmpty_cons, Bool.not_false, if_true] at h2
    obtain ⟨a', r', b, q', h3, h4, h5⟩ := readByte_next h2
    simp only [emit_rxFifo, arrived_rxFifo, hq, List.cons_append, List.cons.injEq] at h4
    obtain ⟨rfl, rfl⟩ := h4
    refine ⟨x, q, a', r', rfl, by simpa using h3, ?_⟩
    simp only [Host.Outcome.next.injEq] at h5
    rw [← h5]
    simp [drained, emit, arrived, setFifo, drainEvents]

/-- The state after a whole transmit sequence (43_reply_transmit.md R138). -/
def transmitted (x : Option Byte) (fifo : List Byte) (rest : List EnvMove) (s : State) : State :=
  { s with
    txbuf := finalizeBuffer s.txbuf
    busy := false
    rxFifo := fifo
    script := rest
    trace := s.trace ++ sendEvents s.params.drainDelay (finalizeBuffer s.txbuf) ++ drainEvents x }

theorem transmit_of_env {s : State} {x : Option Byte} {fifo : List Byte} {rest : List EnvMove}
    (h : SendEnv s x fifo rest) : transmit s = .next (transmitted x fifo rest s) := by
  obtain ⟨a, r, h1, h2⟩ := h
  obtain ⟨a1, r1, a2, g1, g2, rfl⟩ := (takeTurns_add (m := 16) (n := 2)).1 h1
  obtain ⟨a3, r3, a4, g3, g4, rfl⟩ := takeTurns_succ.1 g2
  rw [takeTurns_one] at g4
  have hlen : (finalizeBuffer s.txbuf).toList.length = 16 := by simp
  simp only [transmit, setBusy_txbuf, finalize_txbuf]
  rw [writeBytes_of_ok (a := a1) (r := r1) _ (by rw [hlen]; simpa using g1)]
  simp only [andThen_next]
  rw [delay_of_ok (a := a3) (r := r3) (by simpa [wrote] using g3)]
  simp only [andThen_next]
  rcases h2 with ⟨hq, rfl, rfl, rfl⟩ | ⟨b, q, a', hq, rfl, h3, rfl⟩
  · rw [drainRead_none (a := a4) (r := rest) (by simpa using g4) (by simpa [wrote] using hq)]
    simp [transmitted, drained, setBusy, emit, arrived, wrote, finalize, sendEvents]
  · rw [takeTurns_one] at h3
    rw [drainRead_some (a1 := a4) (r1 := r) (x := b) (q := q) (a2 := a') (r2 := rest) (by simpa using g4)
      (by simpa [wrote] using hq) h3]
    simp [transmitted, drained, setBusy, emit, arrived, wrote, finalize, sendEvents]

theorem transmit_next {s t : State} (h : transmit s = .next t) :
    ∃ x fifo rest, SendEnv s x fifo rest ∧ t = transmitted x fifo rest s := by
  obtain ⟨u, h1, h2⟩ := andThen_eq_next.1 h
  obtain ⟨a1, r1, g1, rfl⟩ := writeBytes_next h1
  obtain ⟨v, h3, h4⟩ := andThen_eq_next.1 h2
  obtain ⟨a2, r2, g2, rfl⟩ := delay_next h3
  obtain ⟨a3, r3, g3, h5⟩ := drainRead_next h4
  have hlen : (finalizeBuffer s.txbuf).toList.length = 16 := by simp
  simp only [setBusy_txbuf, finalize_txbuf, hlen, setBusy_script, finalize_script] at g1
  simp only [wrote] at g2
  simp only [setBusy_script, emit_script, arrived_script] at g3
  have hturns : takeTurns (16 + (1 + 1)) s.script = .ok (a1 ++ (a2 ++ a3), r3) :=
    takeTurns_add.2 ⟨a1, r1, a2 ++ a3, g1, takeTurns_succ.2 ⟨a2, r2, a3, g2, by rw [takeTurns_one]; exact g3, rfl⟩, rfl⟩
  rcases h5 with ⟨hq, rfl⟩ | ⟨x, q, a', r', hq, g4, rfl⟩
  · refine ⟨none, [], r3, ⟨_, _, hturns, .inl ⟨by simpa [wrote] using hq, rfl, rfl, rfl⟩⟩, ?_⟩
    simp [transmitted, drained, setBusy, emit, arrived, wrote, finalize, sendEvents]
  · refine ⟨some x, q ++ a', r', ⟨_, _, hturns, .inr ⟨x, q, a', by simpa [wrote] using hq, rfl,
      by rw [takeTurns_one]; exact g4, rfl⟩⟩, ?_⟩
    simp [transmitted, drained, setBusy, emit, arrived, wrote, finalize, sendEvents]

/-- A reply arm under an environment that keeps its duties. -/
theorem reply_of_env {s : State} {x : Option Byte} {fifo : List Byte} {rest : List EnvMove} (code : Byte) (body : Buffer)
    (h : ReplyEnv s x fifo rest) :
    reply code body s = .next (replied code (finalizeBuffer body) x fifo rest s) := by
  obtain ⟨q, r, a, h1, h2, rfl⟩ := h
  rw [takeTurns_one] at h2
  rw [reply, transmit_of_env (s := loadTx body s) (x := x) (fifo := q) (rest := r) (by simpa [SendEnv] using h1)]
  simp only [andThen_next]
  rw [diag_of_ok (a := a) (r := rest) _ _ (by simpa [transmitted] using h2)]
  simp [transmitted, replied, emit, arrived, loadTx]

theorem reply_next {s t : State} {code : Byte} {body : Buffer} (h : reply code body s = .next t) :
    ∃ x fifo rest, ReplyEnv s x fifo rest ∧ t = replied code (finalizeBuffer body) x fifo rest s := by
  obtain ⟨u, h1, h2⟩ := andThen_eq_next.1 h
  obtain ⟨x, q, r, h3, rfl⟩ := transmit_next h1
  obtain ⟨a, rest, h4, rfl⟩ := diag_next h2
  refine ⟨x, q ++ a, rest, ⟨q, r, a, by simpa [SendEnv] using h3, by rw [takeTurns_one]; simpa [transmitted] using h4, rfl⟩, ?_⟩
  simp [transmitted, replied, emit, arrived, loadTx]

end Sys2Proof.Machine
end

