-- ==== Sys2Proof/Laws/PerInstr.lean ====
section
/-! SUPPORT. Statements about every instruction, one lemma per constructor (LAWS.json). -/

/-- The frame of an instruction is valid and starts with the header (30_encoding.md R61, 41_checksum.md R101). -/
def Sys2Proof.Laws.EncodedFrameIsValid.Statement (i : Sys2Proof.Instr) : Prop :=
  Sys2Proof.Machine.isValid (Sys2Proof.encode i) = true ∧ (Sys2Proof.encode i)[0] = Sys2Proof.Machine.headerByte

namespace Sys2Proof.Laws.EncodedFrameIsValid

open Sys2Proof Sys2Proof.Machine

theorem range (payload : Payload) : Statement (.range payload) :=
  ⟨isValid_finalizeBuffer _, frame_get_zero _ _⟩

theorem status (payload : Payload) : Statement (.status payload) :=
  ⟨isValid_finalizeBuffer _, frame_get_zero _ _⟩

theorem setFreq (freq : Half) (rest : PayloadRest) : Statement (.setFreq freq rest) :=
  ⟨isValid_finalizeBuffer _, frame_get_zero _ _⟩

theorem setPower (payload : Payload) : Statement (.setPower payload) :=
  ⟨isValid_finalizeBuffer _, frame_get_zero _ _⟩

theorem other (code : Byte) (payload : Payload) : Statement (.other code payload) :=
  ⟨isValid_finalizeBuffer _, frame_get_zero _ _⟩

end Sys2Proof.Laws.EncodedFrameIsValid
end

