-- ==== Sys2Proof/Laws/Receiver.lean ====
section
/-! SUPPORT. What an instruction, a receiver step and a step of the machine can do, said once each: if it answers a next
state, then one of the cases named here holds. -/

namespace Sys2Proof.Machine

/-! ### Instructions -/

/-- The frame an instruction sends, if it replies: its code and the body the arm prepares. -/
def replyBodyOf (i : Instr) (s : State) : Option (Byte × Buffer) :=
  match i with
  | .range _ => some (codeRange, rangeBody)
  | .status _ =>
    some (codeStatus, statusBody s.params.vReplyLayout (chanFreq s.params s.cfgChannel) (powVal s.params s.cfgPower))
  | .setFreq _ _ => none
  | .setPower _ => some (codeSetPower, setPowerBody s.params.sAckPayload)
  | .other _ _ => none

theorem exec_of_replyBody {i : Instr} {s : State} {c : Byte} {body : Buffer} (h : replyBodyOf i s = some (c, body)) :
    exec i s = reply c body s := by
  cases i <;> simp [replyBodyOf] at h <;> obtain ⟨rfl, rfl⟩ := h <;> rfl

/-- An instruction that completes replied, tuned, or only signalled. -/
theorem exec_cases {i : Instr} {s t : State} (h : exec i s = .next t) :
    (∃ c body x fifo rest, replyBodyOf i s = some (c, body) ∧ ReplyEnv s x fifo rest ∧
        t = replied c (finalizeBuffer body) x fifo rest s) ∨
      (∃ freq other j a1 r1 a2 r2, i = .setFreq freq other ∧ chanIndex s.params freq = some j ∧
        takeTurn s.script = .ok (a1, r1) ∧ takeTurn r1 = .ok (a2, r2) ∧
        t = emit (.diag .cmdProcessed codeSetFreq)
          (arrived a2 r2 (emit (.applyChannel j) (arrived a1 r1 (writeCfgChannel j s))))) ∨
      (∃ e x a r, takeTurn s.script = .ok (a, r) ∧ t = emit (.diag e x) (arrived a r s) ∧
        ((∃ freq other, i = .setFreq freq other ∧ chanIndex s.params freq = none ∧ e = .cmdProcessed ∧ x = codeSetFreq) ∨
          ∃ code p, i = .other code p ∧ e = .cmdIgnored ∧ x = code)) := by
  cases i with
  | range p =>
    obtain ⟨x, fifo, rest, h1, h2⟩ := reply_next h
    exact .inl ⟨_, _, x, fifo, rest, rfl, h1, h2⟩
  | status p =>
    obtain ⟨x, fifo, rest, h1, h2⟩ := reply_next h
    exact .inl ⟨_, _, x, fifo, rest, rfl, h1, h2⟩
  | setPower p =>
    obtain ⟨x, fifo, rest, h1, h2⟩ := reply_next h
    exact .inl ⟨_, _, x, fifo, rest, rfl, h1, h2⟩
  | setFreq freq other =>
    simp only [exec, execSetFreq] at h
    split at h
    · rename_i j hj
      obtain ⟨u, h1, h2⟩ := andThen_eq_next.1 h
      obtain ⟨a1, r1, g1, rfl⟩ := applyChannel_next h1
      obtain ⟨a2, r2, g2, rfl⟩ := diag_next h2
      exact .inr (.inl ⟨freq, other, j, a1, r1, a2, r2, rfl, hj, by simpa using g1, by simpa using g2, rfl⟩)
    · rename_i hj
      obtain ⟨a, r, g, rfl⟩ := diag_next h
      exact .inr (.inr ⟨_, _, a, r, g, rfl, .inl ⟨freq, other, rfl, hj, rfl, rfl⟩⟩)
  | other code p =>
    obtain ⟨a, r, g, rfl⟩ := diag_next h
    exact .inr (.inr ⟨_, _, a, r, g, rfl, .inr ⟨code, p, rfl, rfl, rfl⟩⟩)

/-! ### The cursor -/

theorem nextCursor_toNat (c : BitVec 4) : (nextCursor c).toNat = c.toNat + 1 := by
  have := c.isLt
  have h1 : (1 : BitVec 5).toNat = 1 := rfl
  simp only [nextCursor, BitVec.toNat_add, BitVec.toNat_setWidth, h1]
  omega

theorem nextCursor_eq_sixteen (c : BitVec 4) : nextCursor c = 16 ↔ c = 15 := by
  rw [← BitVec.toNat_inj, ← BitVec.toNat_inj, nextCursor_toNat]
  simp

theorem storedCursor_nextCursor (c : BitVec 4) : storedCursor (nextCursor c) = c + 1 := by
  apply BitVec.eq_of_toNat_eq
  simp [storedCursor, nextCursor_toNat]

theorem storedCursor_toNat {c : BitVec 4} (h : c ≠ 15) : (storedCursor (nextCursor c)).toNat = c.toNat + 1 := by
  have := c.isLt
  have h15 : c.toNat ≠ 15 := fun h' => h (BitVec.eq_of_toNat_eq h')
  simp only [storedCursor, BitVec.toNat_setWidth, nextCursor_toNat]
  omega

/-! ### The receiver step -/

/-- The tests of a receiver step in AwaitingHeader, over the state before the append. -/
theorem rxStep_awaitingHeader {s : State} (b : Byte) (h : s.rxState = .awaitingHeader) :
    rxStep b s = if b ≠ headerByte then onNoise b (appendByte b s)
      else if s.cursor = 15 then onOverflow b (appendByte b s)
      else onHeader (nextCursor s.cursor) (appendByte b s) := by
  simp only [rxStep, classify, appendByte_rxState, h, nextCursor_eq_sixteen]

/-- The tests of a receiver step in AwaitingCode, over the state before the append. -/
theorem rxStep_awaitingCode {s : State} (b : Byte) (h : s.rxState = .awaitingCode) :
    rxStep b s = if codeAccepted s.params b = false then onCodeRejected b (appendByte b s)
      else if s.cursor = 15 then onOverflow b (appendByte b s)
      else onCode (nextCursor s.cursor) (appendByte b s) := by
  unfold rxStep classify
  rw [appendByte_rxState, h]
  simp only [nextCursor_eq_sixteen]
  rfl

/-- The test of a receiver step in AccumulatingData, over the state before the append. -/
theorem rxStep_accumulatingData {s : State} (b : Byte) (h : s.rxState = .accumulatingData) :
    rxStep b s = if s.cursor = 15 then onLast (appendByte b s)
      else onData (nextCursor s.cursor) (appendByte b s) := by
  simp only [rxStep, classify, appendByte_rxState, h, nextCursor_eq_sixteen]

/-- A receiver step in the illegal state. -/
theorem rxStep_illegal {s : State} (b : Byte) (h : s.rxState = .illegal) :
    rxStep b s = onIllegalState b (appendByte b s) := by
  simp only [rxStep, classify, appendByte_rxState, h]

/-- A receiver step that completes advanced quietly, resynchronised with a diagnostic, or completed a frame. -/
theorem rxStep_cases {b : Byte} {s t : State} (h : rxStep b s = .next t) :
    (∃ r', s.cursor ≠ 15 ∧ t = goTo r' (nextCursor s.cursor) (appendByte b s) ∧
        ((s.rxState = .awaitingHeader ∧ b = headerByte ∧ r' = .awaitingCode) ∨
          (s.rxState = .awaitingCode ∧ codeAccepted s.params b = true ∧ r' = .accumulatingData) ∨
          (s.rxState = .accumulatingData ∧ r' = .accumulatingData))) ∨
      (∃ e a r, takeTurn s.script = .ok (a, r) ∧ t = emit (.diag e b) (arrived a r (resync (appendByte b s))) ∧
        ((s.rxState = .awaitingHeader ∧ b ≠ headerByte ∧ e = .framingLoss) ∨
          (s.rxState = .awaitingHeader ∧ b = headerByte ∧ s.cursor = 15 ∧ e = .recovered) ∨
          (s.rxState = .awaitingCode ∧ codeAccepted s.params b = false ∧ e = .codeRejected) ∨
          (s.rxState = .awaitingCode ∧ codeAccepted s.params b = true ∧ s.cursor = 15 ∧ e = .recovered) ∨
          (s.rxState = .illegal ∧ e = .recovered))) ∨
      (∃ u, s.rxState = .accumulatingData ∧ s.cursor = 15 ∧ completeFrame (appendByte b s) = .next u ∧ t = resync u) := by
  have hd : ∀ {e : DiagEvent} {u : State}, diag e b (resync (appendByte b s)) = .next u →
      ∃ a r, takeTurn s.script = .ok (a, r) ∧ u = emit (.diag e b) (arrived a r (resync (appendByte b s))) := by
    intro e u hu
    obtain ⟨a, r, g, rfl⟩ := diag_next hu
    exact ⟨a, r, by simpa using g, rfl⟩
  cases hs : s.rxState with
  | awaitingHeader =>
    rw [rxStep_awaitingHeader b hs] at h
    split at h
    · rename_i hb
      obtain ⟨a, r, g, rfl⟩ := hd h
      exact .inr (.inl ⟨_, a, r, g, rfl, .inl ⟨rfl, hb, rfl⟩⟩)
    · rename_i hb
      split at h
      · rename_i hc
        obtain ⟨a, r, g, rfl⟩ := hd h
        exact .inr (.inl ⟨_, a, r, g, rfl, .inr (.inl ⟨rfl, Decidable.not_not.1 hb, hc, rfl⟩)⟩)
      · rename_i hc
        simp only [onHeader, Host.Outcome.next.injEq] at h
        exact .inl ⟨_, hc, h.symm, .inl ⟨rfl, Decidable.not_not.1 hb, rfl⟩⟩
  | awaitingCode =>
    rw [rxStep_awaitingCode b hs] at h
    split at h
    · rename_i hb
      obtain ⟨a, r, g, rfl⟩ := hd h
      exact .inr (.inl ⟨_, a, r, g, rfl, .inr (.inr (.inl ⟨rfl, hb, rfl⟩))⟩)
    · rename_i hb
      split at h
      · rename_i hc
        obtain ⟨a, r, g, rfl⟩ := hd h
        exact .inr (.inl ⟨_, a, r, g, rfl, .inr (.inr (.inr (.inl ⟨rfl, by simpa using hb, hc, rfl⟩)))⟩)
      · rename_i hc
        simp only [onCode, Host.Outcome.next.injEq] at h
        exact .inl ⟨_, hc, h.symm, .inr (.inl ⟨rfl, by simpa using hb, rfl⟩)⟩
  | accumulatingData =>
    rw [rxStep_accumulatingData b hs] at h
    split at h
    · rename_i hc
      obtain ⟨u, h1, h2⟩ := andThen_eq_next.1 h
      simp only [Host.Outcome.next.injEq] at h2
      exact .inr (.inr ⟨u, rfl, hc, h1, h2.symm⟩)
    · rename_i hc
      simp only [onData, appendByte_rxState, hs, Host.Outcome.next.injEq] at h
      exact .inl ⟨_, hc, h.symm, .inr (.inr ⟨rfl, rfl⟩)⟩
  | illegal =>
    rw [rxStep_illegal b hs] at h
    obtain ⟨a, r, g, rfl⟩ := hd h
    exact .inr (.inl ⟨_, a, r, g, rfl, .inr (.inr (.inr (.inr ⟨rfl, rfl⟩)))⟩)

/-- A completed frame that goes on was dispatched or discarded. -/
theorem completeFrame_cases {s t : State} (h : completeFrame s = .next t) :
    (∃ i, decodeFrame s.rxbuf = .ok i ∧ exec i s = .next t) ∨
      (∃ e a r, decodeFrame s.rxbuf = .error e ∧ takeTurn s.script = .ok (a, r) ∧
        t = emit (.diag .frameDiscarded s.rxbuf[1]) (arrived a r s)) := by
  unfold completeFrame at h
  split at h
  · rename_i i hi
    exact .inl ⟨i, hi, h⟩
  · rename_i e he
    obtain ⟨a, r, g, rfl⟩ := diag_next h
    exact .inr ⟨e, a, r, he, g, rfl⟩

/-! ### The step -/

/-- The state in which a step makes its receiver step: the oldest byte popped, after two turns. -/
def fetched (b : Byte) (q : List Byte) (r : List EnvMove) (s : State) : State :=
  { s with rxFifo := q, script := r, trace := s.trace ++ [.avail true, .readByte b] }

theorem passStep_of_ok {s : State} {a1 a2 q : List Byte} {r1 r2 : List EnvMove} {b : Byte}
    (h1 : takeTurn s.script = .ok (a1, r1)) (hq : s.rxFifo ++ a1 = b :: q) (h2 : takeTurn r1 = .ok (a2, r2)) :
    passStep s = rxStep b (fetched b (q ++ a2) r2 s) := by
  simp only [passStep, avail_of_ok h1, hq, List.isEmpty_cons, Bool.not_false, if_true]
  rw [readByte_of_ok (a := a2) (r := r2) (b := b) (q := q ++ a2) (by simpa using h2) (by simp [hq])]
  congr 1
  simp [fetched, emit, arrived, setFifo]

theorem passStep_of_empty {s : State} {a : List Byte} {r : List EnvMove} (h : takeTurn s.script = .ok (a, r))
    (hq : s.rxFifo ++ a = []) : passStep s = .next (endPass (emit (.avail false) (arrived a r s))) := by
  simp only [passStep, avail_of_ok h, hq]
  simp

/-- A step of a running pass that goes on ended the pass or made a receiver step. -/
theorem passStep_cases {s t : State} (h : passStep s = .next t) :
    (∃ a r, takeTurn s.script = .ok (a, r) ∧ s.rxFifo ++ a = [] ∧
        t = endPass (emit (.avail false) (arrived a r s))) ∨
      (∃ a1 r1 a2 r2 b q, takeTurn s.script = .ok (a1, r1) ∧ s.rxFifo ++ a1 = b :: q ∧ takeTurn r1 = .ok (a2, r2) ∧
        rxStep b (fetched b (q ++ a2) r2 s) = .next t) := by
  obtain ⟨a, r, h1, h2⟩ := avail_next h
  cases hq : s.rxFifo ++ a with
  | nil =>
    left
    refine ⟨a, r, h1, hq, ?_⟩
    simpa [hq] using h2.symm
  | cons b q =>
    right
    simp only [hq, List.isEmpty_cons, Bool.not_false, if_true] at h2
    obtain ⟨a', r', b', q', h3, h4, -⟩ := readByte_next h2
    simp only [emit_rxFifo, arrived_rxFifo, hq, List.cons_append, List.cons.injEq] at h4
    simp only [emit_script, arrived_script] at h3
    exact ⟨a, r, a', r', b, q, h1, hq, h3, by rw [← h, passStep_of_ok h1 hq h3]⟩

theorem step_running {s : State} (h : s.passRunning = true) : step s = passStep s := by simp [step, machineStep, h]

theorem step_idle {s : State} (h : s.passRunning = false) : step s = idleStep s := by simp [step, machineStep, h]

/-- A step between passes that goes on stayed put or made the environment's next move. -/
theorem idleStep_cases {s t : State} (h : idleStep s = .next t) :
    (s.script = [] ∧ t = s) ∨
      ∃ m rest, s.script = m :: rest ∧ t = applyIdleMove m { s with script := rest } := by
  unfold idleStep at h
  split at h
  · rename_i hs
    exact .inl ⟨hs, by simpa using h.symm⟩
  · rename_i m rest hs
    exact .inr ⟨m, rest, hs, by simpa using h.symm⟩

end Sys2Proof.Machine
end

