-- ==== Sys2Proof/Laws/Trace.lean ====
section
/-! SUPPORT. The laws of the effect trace: what each event and each sequence of events sends, pops and guards. -/

namespace Sys2Proof.Machine

@[simp] theorem sentBytes_nil : sentBytes [] = [] := rfl

@[simp] theorem sentBytes_avail (r : Bool) (es : List Event) : sentBytes (.avail r :: es) = sentBytes es := rfl

@[simp] theorem sentBytes_readByte (b : Byte) (es : List Event) : sentBytes (.readByte b :: es) = sentBytes es := rfl

@[simp] theorem sentBytes_writeByte (b : Byte) (es : List Event) : sentBytes (.writeByte b :: es) = b :: sentBytes es := rfl

@[simp] theorem sentBytes_applyChannel (i : Byte) (es : List Event) : sentBytes (.applyChannel i :: es) = sentBytes es := rfl

@[simp] theorem sentBytes_delay (d : Nat) (es : List Event) : sentBytes (.delay d :: es) = sentBytes es := rfl

@[simp] theorem sentBytes_diag (e : DiagEvent) (x : Byte) (es : List Event) : sentBytes (.diag e x :: es) = sentBytes es := rfl

@[simp] theorem sentBytes_busy (v : Bool) (es : List Event) : sentBytes (.busy v :: es) = sentBytes es := rfl

@[simp] theorem sentBytes_cfgChannel (i : Byte) (es : List Event) : sentBytes (.cfgChannel i :: es) = sentBytes es := rfl

@[simp] theorem sentBytes_append (as bs : List Event) : sentBytes (as ++ bs) = sentBytes as ++ sentBytes bs := by simp [sentBytes]

@[simp] theorem poppedBytes_nil : poppedBytes [] = [] := rfl

@[simp] theorem poppedBytes_avail (r : Bool) (es : List Event) : poppedBytes (.avail r :: es) = poppedBytes es := rfl

@[simp] theorem poppedBytes_readByte (b : Byte) (es : List Event) : poppedBytes (.readByte b :: es) = b :: poppedBytes es := rfl

@[simp] theorem poppedBytes_writeByte (b : Byte) (es : List Event) : poppedBytes (.writeByte b :: es) = poppedBytes es := rfl

@[simp] theorem poppedBytes_applyChannel (i : Byte) (es : List Event) : poppedBytes (.applyChannel i :: es) = poppedBytes es := rfl

@[simp] theorem poppedBytes_delay (d : Nat) (es : List Event) : poppedBytes (.delay d :: es) = poppedBytes es := rfl

@[simp] theorem poppedBytes_diag (e : DiagEvent) (x : Byte) (es : List Event) : poppedBytes (.diag e x :: es) = poppedBytes es := rfl

@[simp] theorem poppedBytes_busy (v : Bool) (es : List Event) : poppedBytes (.busy v :: es) = poppedBytes es := rfl

@[simp] theorem poppedBytes_cfgChannel (i : Byte) (es : List Event) : poppedBytes (.cfgChannel i :: es) = poppedBytes es := rfl

@[simp] theorem poppedBytes_append (as bs : List Event) : poppedBytes (as ++ bs) = poppedBytes as ++ poppedBytes bs := by simp [poppedBytes]

@[simp] theorem sentBytes_writes (bs : List Byte) : sentBytes (bs.map .writeByte) = bs := by
  induction bs with
  | nil => rfl
  | cons b bs ih => simp [ih]

@[simp] theorem poppedBytes_writes (bs : List Byte) : poppedBytes (bs.map .writeByte) = [] := by
  induction bs with
  | nil => rfl
  | cons b bs ih => simp [ih]

@[simp] theorem sentBytes_sendEvents (d : Nat) (f : Buffer) : sentBytes (sendEvents d f) = f.toList := by
  simp [sendEvents]

@[simp] theorem poppedBytes_sendEvents (d : Nat) (f : Buffer) : poppedBytes (sendEvents d f) = [] := by
  simp [sendEvents]

@[simp] theorem sentBytes_drainEvents (x : Option Byte) : sentBytes (drainEvents x) = [] := by cases x <;> rfl

@[simp] theorem poppedBytes_drainEvents (x : Option Byte) : poppedBytes (drainEvents x) = x.toList := by cases x <;> rfl

/-- Events guarded on their own are guarded after any event. -/
theorem readsGuarded_mono {es : List Event} (h : readsGuarded false es = true) (ready : Bool) :
    readsGuarded ready es = true := by
  cases ready with
  | false => exact h
  | true => cases es with
    | nil => rfl
    | cons e es => cases e <;> simp_all [readsGuarded]

/-- Guarded events may be followed by events guarded on their own. -/
theorem readsGuarded_append {as bs : List Event} {ready : Bool} (ha : readsGuarded ready as = true)
    (hb : readsGuarded false bs = true) : readsGuarded ready (as ++ bs) = true := by
  induction as generalizing ready with
  | nil => exact readsGuarded_mono hb ready
  | cons e es ih =>
    cases e <;> simp only [List.cons_append, readsGuarded, Bool.and_eq_true] at ha ⊢ <;>
      first
        | exact ih ha
        | exact ⟨ha.1, ih ha.2⟩

theorem readsGuarded_sendEvents (d : Nat) (f : Buffer) : readsGuarded false (sendEvents d f) = true := by
  have h : readsGuarded false (f.toList.map .writeByte) = true := by
    generalize f.toList = bs
    induction bs with
    | nil => rfl
    | cons b bs ih => exact ih
  exact readsGuarded_append (readsGuarded_append (ready := false) rfl h) rfl

theorem readsGuarded_drainEvents (x : Option Byte) : readsGuarded false (drainEvents x) = true := by cases x <;> rfl

/-- The arrivals of two runs of moves. -/
@[simp] theorem arrivalsOf_append (ms ns : List EnvMove) : arrivalsOf (ms ++ ns) = arrivalsOf ms ++ arrivalsOf ns := by
  simp [arrivalsOf]

end Sys2Proof.Machine
end

