-- ==== Sys2Proof/Laws/Turns.lean ====
section
/-! SUPPORT. How many turns of the environment each operation takes: it goes on after at most so many, or one of those
turns broke a duty and its fault is the operation's. -/

namespace Sys2Proof.Machine

/-! ### Turns that fail -/

theorem takeTurns_error_succ {n : Nat} {m : List EnvMove} {f : Fault} : takeTurns (n + 1) m = .error f ↔
    takeTurn m = .error f ∨ ∃ a r, takeTurn m = .ok (a, r) ∧ takeTurns n r = .error f := by
  simp only [takeTurns]
  cases h : takeTurn m with
  | error g => simp
  | ok p =>
    obtain ⟨a, r⟩ := p
    simp
    cases h2 : takeTurns n r <;> simp

theorem takeTurns_error_more {n k : Nat} {m : List EnvMove} {f : Fault} (h : takeTurns n m = .error f) :
    takeTurns (n + k) m = .error f := by
  induction n generalizing m with
  | zero => simp [takeTurns] at h
  | succ n ih =>
    rw [Nat.add_right_comm, takeTurns_error_succ]
    rcases takeTurns_error_succ.1 h with h | ⟨a, r, h1, h2⟩
    · exact .inl h
    · exact .inr ⟨a, r, h1, ih h2⟩

theorem takeTurns_error_append {n k : Nat} {m : List EnvMove} {a : List Byte} {r : List EnvMove} {f : Fault}
    (h : takeTurns n m = .ok (a, r)) (h2 : takeTurns k r = .error f) : takeTurns (n + k) m = .error f := by
  induction n generalizing m a with
  | zero => simp [takeTurns] at h; rw [h.2]; simpa using h2
  | succ n ih =>
    obtain ⟨a1, r1, a2, g1, g2, rfl⟩ := takeTurns_succ.1 h
    rw [Nat.add_right_comm, takeTurns_error_succ]
    exact .inr ⟨a1, r1, g1, ih g2⟩

/-- A turn fails only by a broken duty (60_exceptions.md R148). -/
theorem takeTurns_fault {n : Nat} {m : List EnvMove} {f : Fault} (h : takeTurns n m = .error f) :
    f = .cfgWriteDuringPass ∨ f = .passOverlap := by
  induction n generalizing m with
  | zero => simp [takeTurns] at h
  | succ n ih =>
    rcases takeTurns_error_succ.1 h with h | ⟨a, r, h1, h2⟩
    · exact takeTurn_fault h
    · exact ih h2

/-- A turn that breaks a duty does so after whatever arrives first. -/
theorem takeTurn_arrive_error (bytes : List Byte) {m : List EnvMove} {f : Fault} (h : takeTurn m = .error f) :
    takeTurn (bytes.map .arrive ++ m) = .error f := by
  induction bytes with
  | nil => exact h
  | cons b bs ih => simp [takeTurn, ih]

/-- The arrivals of `n` turns are those of the moves they spend. -/
theorem takeTurns_arrivals {n : Nat} {m : List EnvMove} {a : List Byte} {r : List EnvMove}
    (h : takeTurns n m = .ok (a, r)) : ∃ spent, m = spent ++ r ∧ a = arrivalsOf spent := by
  induction n generalizing m a with
  | zero => simp [takeTurns] at h; exact ⟨[], by simp [h, arrivalsOf]⟩
  | succ n ih =>
    obtain ⟨a1, r1, a2, g1, g2, rfl⟩ := takeTurns_succ.1 h
    obtain ⟨p1, e1, e2⟩ := takeTurn_arrivals g1
    obtain ⟨p2, e3, e4⟩ := ih g2
    exact ⟨p1 ++ p2, by rw [e1, e3, List.append_assoc], by rw [e2, e4]; simp [arrivalsOf, List.filterMap_append]⟩

/-! ### Turns an operation takes -/

/-- The operation's outcome `r` from `s` takes at most `n` turns: it goes on after `k ≤ n` of them, or it faults and the
fault is among them. -/
def Uses (n : Nat) (s : State) (r : Result) : Prop :=
  (∃ t k a, k ≤ n ∧ r = .next t ∧ takeTurns k s.script = .ok (a, t.script)) ∨
    ∃ f, r = .fault f ∧ takeTurns n s.script = .error f

theorem uses_bind {n m : Nat} {s : State} {r : Result} {k : State → Result} (h : Uses n s r)
    (hk : ∀ t, r = .next t → Uses m t (k t)) : Uses (n + m) s (andThen r k) := by
  rcases h with ⟨t, j, a, hj, rfl, h2⟩ | ⟨f, rfl, h2⟩
  · simp only [andThen_next]
    rcases hk t rfl with ⟨t', j', a', hj', e, h3⟩ | ⟨f, e, h3⟩
    · exact .inl ⟨t', j + j', a ++ a', by omega, e, takeTurns_add.2 ⟨_, _, _, h2, h3, rfl⟩⟩
    · refine .inr ⟨f, e, ?_⟩
      have := takeTurns_error_append h2 h3
      have e2 : n + m = (j + m) + (n - j) := by omega
      rw [e2]; exact takeTurns_error_more this
  · exact .inr ⟨f, rfl, takeTurns_error_more h2⟩

theorem uses_turn (s : State) : Uses 1 s (envTurn s) := by
  cases h : takeTurn s.script with
  | ok p =>
    obtain ⟨a, r⟩ := p
    rw [envTurn_of_ok h]
    exact .inl ⟨_, 1, a, by omega, rfl, by rw [takeTurns_one]; exact h⟩
  | error f => exact .inr ⟨f, by simp [envTurn, h], by rw [takeTurns_one]; exact h⟩

theorem uses_next {n : Nat} (s t : State) (h : t.script = s.script) : Uses n s (.next t) :=
  .inl ⟨t, 0, [], by omega, rfl, by simp [takeTurns, h]⟩

theorem uses_mono {n m : Nat} {s : State} {r : Result} (h : Uses n s r) (hm : n ≤ m) : Uses m s r := by
  rcases h with ⟨t, j, a, hj, e, h2⟩ | ⟨f, e, h2⟩
  · exact .inl ⟨t, j, a, by omega, e, h2⟩
  · refine .inr ⟨f, e, ?_⟩
    obtain ⟨k, rfl⟩ := Nat.exists_eq_add_of_le hm
    exact takeTurns_error_more h2

theorem uses_script {n : Nat} {s s' : State} {r : Result} (h : Uses n s r) (e : s.script = s'.script) :
    Uses n s' r := by
  unfold Uses at *
  rwa [← e]

theorem uses_prim {s : State} {g : State → State} (hg : ∀ u, (g u).script = u.script) :
    Uses 1 s (andThen (envTurn s) fun s => .next (g s)) :=
  uses_bind (m := 0) (uses_turn s) fun t _ => uses_next _ _ (hg t)

theorem uses_writeBytes (bs : List Byte) (s : State) : Uses bs.length s (writeBytes bs s) := by
  induction bs generalizing s with
  | nil => exact uses_next _ _ rfl
  | cons b bs ih =>
    rw [List.length_cons, Nat.add_comm]
    exact uses_bind (uses_prim fun _ => rfl) fun t _ => ih t

theorem uses_drainRead (s : State) : Uses 2 s (drainRead s) := by
  refine uses_bind (n := 1) (m := 1) (uses_turn s) ?_
  intro t _
  cases h : t.rxFifo with
  | nil => exact uses_next _ _ rfl
  | cons x q =>
    simp only [List.isEmpty_cons, Bool.not_false, if_true]
    refine uses_script (s := emit (.avail true) t) ?_ rfl
    refine uses_bind (n := 1) (m := 0) (uses_turn _) ?_
    intro u hu
    obtain ⟨a, r, _, rfl⟩ := envTurn_next hu
    simp only [arrived_rxFifo, emit_rxFifo, h, List.cons_append]
    exact uses_next _ _ rfl

theorem uses_transmit (s : State) : Uses 19 s (transmit s) := by
  unfold transmit
  refine uses_script (s := setBusy true (finalize s)) ?_ rfl
  have hlen : (setBusy true (finalize s)).txbuf.toList.length = 16 := by simp
  refine uses_bind (n := 16) (m := 3) ?_ fun t _ => ?_
  · have := uses_writeBytes (setBusy true (finalize s)).txbuf.toList (setBusy true (finalize s))
    rwa [hlen] at this
  · refine uses_bind (n := 1) (m := 2) (uses_prim fun _ => rfl) fun t _ => ?_
    exact uses_script (uses_drainRead _) rfl

theorem uses_diag (e : DiagEvent) (x : Byte) (s : State) : Uses 1 s (diag e x s) := uses_prim fun _ => rfl

theorem uses_reply (c : Byte) (b : Buffer) (s : State) : Uses 20 s (reply c b s) := by
  refine uses_bind (n := 19) (m := 1) ?_ fun t _ => uses_diag _ _ _
  exact uses_script (uses_transmit _) rfl

/-- A reply arm faults when a duty is broken in one of its turns. -/
theorem reply_of_broken {s : State} {f : Fault} (code : Byte) (body : Buffer) (h : ReplyBroken s f) :
    reply code body s = .fault f := by
  have h20 : takeTurns 20 s.script = .error f := by
    rcases h with h | ⟨a, r, h1, ⟨-, h2⟩ | ⟨-, h2⟩⟩
    · exact takeTurns_error_more (k := 2) h
    · exact takeTurns_error_more (k := 1) (takeTurns_error_append h1 h2)
    · exact takeTurns_error_append h1 h2
  rcases uses_reply code body s with ⟨t, k, a, hk, e, -⟩ | ⟨g, e, h2⟩
  · exfalso
    obtain ⟨x, fifo, rest, ⟨q, r, a', ⟨a0, r0, e1, hx⟩, e2, -⟩, -⟩ := reply_next e
    rcases h with h | ⟨a, r, h1, h2⟩
    · rw [h] at e1; cases e1
    · rw [h1] at e1; cases e1
      rcases hx with ⟨hq, rfl, rfl, rfl⟩ | ⟨y, q', a'', hq, -, e3, -⟩
      · rcases h2 with ⟨-, h2⟩ | ⟨h2, -⟩
        · rw [e2] at h2; cases h2
        · exact h2 hq
      · rcases h2 with ⟨h2, -⟩ | ⟨-, h2⟩
        · rw [hq] at h2; cases h2
        · have h3 := (takeTurns_add (m := 1) (n := 1)).2 ⟨_, _, _, e3, e2, rfl⟩
          rw [show 1 + 1 = 2 from rfl, h2] at h3; cases h3
  · rw [h20] at h2; cases h2
    exact e

theorem uses_exec (i : Instr) (s : State) : Uses 20 s (exec i s) := by
  cases i with
  | range p => exact uses_reply _ _ _
  | status p => exact uses_reply _ _ _
  | setPower p => exact uses_reply _ _ _
  | other c p => exact uses_mono (uses_diag _ _ _) (by omega)
  | setFreq f r =>
    show Uses 20 s (execSetFreq f r s)
    unfold execSetFreq
    split
    · refine uses_mono (n := 2) (uses_bind (n := 1) (m := 1) ?_ fun t _ => uses_diag _ _ _) (by omega)
      exact uses_script (uses_prim (s := writeCfgChannel _ s) fun _ => rfl) rfl
    · exact uses_mono (uses_diag _ _ _) (by omega)

theorem uses_onLast (s : State) : Uses 20 s (onLast s) := by
  refine uses_bind (n := 20) (m := 0) ?_ fun t _ => uses_next _ _ rfl
  unfold completeFrame
  split
  · exact uses_exec _ _
  · exact uses_mono (uses_diag _ _ _) (by omega)

theorem uses_rxStep (b : Byte) (s : State) : Uses 20 s (rxStep b s) := by
  have hd : ∀ e, Uses 20 s (diag e b (resync (appendByte b s))) := fun e =>
    uses_mono (uses_script (uses_diag _ _ _) rfl) (by omega)
  cases hs : s.rxState with
  | awaitingHeader =>
    rw [rxStep_awaitingHeader _ hs]
    split
    · exact hd _
    · split
      · exact hd _
      · exact uses_next _ _ rfl
  | awaitingCode =>
    rw [rxStep_awaitingCode _ hs]
    split
    · exact hd _
    · split
      · exact hd _
      · exact uses_next _ _ rfl
  | accumulatingData =>
    rw [rxStep_accumulatingData _ hs]
    split
    · exact uses_script (uses_onLast _) rfl
    · exact uses_next _ _ rfl
  | illegal =>
    rw [rxStep_illegal _ hs]
    exact hd _

theorem uses_passStep (s : State) : Uses 22 s (passStep s) := by
  refine uses_bind (n := 1) (m := 21) (uses_turn s) ?_
  intro t _
  cases h : t.rxFifo with
  | nil => exact uses_next _ _ rfl
  | cons x q =>
    simp only [List.isEmpty_cons, Bool.not_false, if_true]
    refine uses_script (s := emit (.avail true) t) ?_ rfl
    refine uses_bind (n := 1) (m := 20) (uses_turn _) ?_
    intro u hu
    obtain ⟨a, r, _, rfl⟩ := envTurn_next hu
    simp only [arrived_rxFifo, emit_rxFifo, h, List.cons_append]
    exact uses_script (uses_rxStep _ _) rfl

end Sys2Proof.Machine
end

