-- ==== Sys2Proof/Tests/Slice0.lean ====
section
/-! SUPPORT. Tests: the expected values are spec/95_test_vectors.md's and spec/30_encoding.md's, named beside each; the
checks of WellFormed refuse ill-formed terms; and a witness for the hypotheses of each statement of Obligations. -/

namespace Sys2Proof.Tests

open Sys2Proof Sys2Proof.Machine

/-! ### Start states -/

/-- ACK_T of 95_test_vectors.md section 0. -/
def ackT : Payload := #v[1, 2, 3, 4, 5, 6, 7, 8, 9, 10, 11, 12]

/-- The default parameters with ACK_T and some delay. -/
def testParams : Params := { defaultParams with sAckPayload := ackT, drainDelay := 3 }

/-- The vectors' start state. -/
def start : State := { State.reset with params := testParams }

/-- The start state with the code filter enabled. -/
def filtering : State := { start with params := { testParams with codeFilterEnabled := true } }

/-- The start state in a running pass with bytes waiting. -/
def waiting (bytes : List Byte) : State := { start with passRunning := true, rxFifo := bytes }

/-- A frame received but for its last byte. -/
def almost (f : Buffer) : State :=
  { start with rxState := .accumulatingData, cursor := 15, rxbuf := f.set 15 0xAA, passRunning := true }

def reqR : Buffer := #v[0x0F, 0x72, 0, 0, 0, 0, 0, 0, 0, 0, 0, 0, 0, 0, 0x72, 0]
def reqV : Buffer := #v[0x0F, 0x76, 0, 0, 0, 0, 0, 0, 0, 0, 0, 0, 0, 0, 0x76, 0]
def reqS : Buffer := #v[0x0F, 0x73, 0, 0, 0, 0, 0, 0, 0, 0, 0, 0, 0, 0, 0x73, 0]
def reqF5732 : Buffer := #v[0x0F, 0x46, 0x64, 0x16, 0, 0, 0, 0, 0, 0, 0, 0, 0, 0, 0xC0, 0]
def reqX : Buffer := #v[0x0F, 0x78, 0, 0, 0, 0, 0, 0, 0, 0, 0, 0, 0, 0, 0x78, 0]
def badR : Buffer := #v[0x0F, 0x72, 0, 0, 0, 0, 0, 0, 0, 0, 0, 0, 0, 0, 0x73, 0]
def zeroPayload : Payload := Vector.replicate 12 0
def zeroRest : PayloadRest := Vector.replicate 10 0

/-! ### What a step showed -/

def sent : Result → List Byte
  | .next t => txSink t
  | .fault _ => []
  | .refused _ => []

def tuned : Result → List Byte
  | .next t => driverCalls t
  | .fault _ => []
  | .refused _ => []

def signals : Result → List (BitVec 3 × Byte)
  | .next t => (t.trace.map diagPort).filter (fun p => p.1 != 0)
  | .fault _ => []
  | .refused _ => []

def popped : Result → List Byte
  | .next t => poppedBytes t.trace
  | .fault _ => []
  | .refused _ => []

/-- State, cursor, busy and the configuration store after a step. -/
def ended : Result → Option (BitVec 2 × BitVec 4 × Bool × Byte × Byte)
  | .next t => some (rxStateEncoding t.rxState, t.cursor, t.busy, t.cfgChannel, t.cfgPower)
  | .fault _ => none
  | .refused _ => none

/-! ### WellFormed refuses ill-formed terms -/

theorem test_wf_other_with_command_code : (Instr.other 0x72 zeroPayload).wf = false := by decide
theorem test_wf_other_lower_case_f : (Instr.other 0x66 zeroPayload).wf = true := by decide
theorem test_wf_layout_overlap : (VReplyLayout.mk .at2 .at4 3 7 .at8).wf = false := by decide
theorem test_wf_layout_over_checksum : (VReplyLayout.mk .at2 .at4 6 14 .at8).wf = false := by decide
theorem test_wf_layout_over_code : (VReplyLayout.mk .at2 .at4 1 7 .at8).wf = false := by decide
theorem test_wf_layout_same_pair : (VReplyLayout.mk .at2 .at4 6 7 .at4).wf = false := by decide
theorem test_wf_default_params : State.reset.params.wf = true := by decide
theorem test_wf_params_6000 : ({ testParams with
    channelTable := #v[5658, 5695, 5732, 5769, 5806, 5843, 5880, 5917, 5760, 6000] } : Params).wf = false := by decide
theorem test_wf_params_entry_2 : ({ testParams with
    channelTable := #v[5732, 5695, 5658, 5769, 5806, 5843, 5880, 5917, 5760, 5800] } : Params).wf = false := by decide
theorem test_wf_params_filter_repeat : ({ testParams with codeFilterSet := [0x72, 0x72] } : Params).wf = false := by decide

/-! ### Decoding (30_encoding.md R63, R65, R73): frames and table words written out -/

theorem test_decode_range : decode reqR.toList = .ok (.range zeroPayload) := by rfl
theorem test_decode_status : decode reqV.toList = .ok (.status zeroPayload) := by rfl
/-- DP-F14: the rest of the payload is kept. -/
theorem test_decode_setFreq :
    decode [0x0F, 0x46, 0x64, 0x16, 1, 2, 3, 4, 5, 6, 7, 8, 9, 0x0A, 0xF7, 0] =
      .ok (.setFreq 5732 #v[1, 2, 3, 4, 5, 6, 7, 8, 9, 10]) := by rfl
theorem test_decode_setPower : decode reqS.toList = .ok (.setPower zeroPayload) := by rfl
theorem test_decode_other : decode reqX.toList = .ok (.other 0x78 zeroPayload) := by rfl
/-- CS-10, CS-11. -/
theorem test_decode_refuses :
    decode badR.toList = .error .badChecksum ∧
    decode [0x0F, 0x72, 0, 0, 0, 0, 0, 0, 0, 0, 0, 0, 0, 0, 0x72, 1] = .error .badTrailer ∧
    decode [0x0F, 0x72] = .error .wrongLength := ⟨rfl, rfl, rfl⟩
theorem test_encode_range : encode (.range zeroPayload) = reqR := by decide
theorem test_encode_status : encode (.status zeroPayload) = reqV := by decide
theorem test_encode_setFreq : encode (.setFreq 5732 zeroRest) = reqF5732 := by decide
theorem test_encode_setPower : encode (.setPower zeroPayload) = reqS := by decide
theorem test_encode_other : encode (.other 0x78 zeroPayload) = reqX := by decide
theorem test_table_words :
    decodeTableWord 8 0x72 = some (.range zeroPayload) ∧ decodeTableWord 8 0x76 = some (.status zeroPayload) ∧
    decodeTableWord 8 0x46 = some (.setFreq 0 zeroRest) ∧ decodeTableWord 8 0x73 = some (.setPower zeroPayload) ∧
    decodeTableWord 8 0x00 = some (.other 0 zeroPayload) ∧ decodeTableWord 24 0x166446 = some (.setFreq 5732 zeroRest) :=
  ⟨rfl, rfl, rfl, rfl, rfl, rfl⟩

/-- The first step after reset runs the word that the host places, for each row of the opcode table. -/
theorem test_withFetchWord_runs :
    (∃ t, step (State.reset.withFetchWord 8 0x72) = .next t) ∧ (∃ t, step (State.reset.withFetchWord 8 0x76) = .next t) ∧
    (∃ t, step (State.reset.withFetchWord 8 0x46) = .next t) ∧ (∃ t, step (State.reset.withFetchWord 8 0x73) = .next t) ∧
    ∃ t, step (State.reset.withFetchWord 8 0x00) = .next t :=
  ⟨⟨_, rfl⟩, ⟨_, rfl⟩, ⟨_, rfl⟩, ⟨_, rfl⟩, ⟨_, rfl⟩⟩

/-- 10_state.md R21 and 60_exceptions.md R142. -/
theorem test_encodings :
    (∀ r, rxStateOfEncoding (rxStateEncoding r) = r) ∧ rxStateEncoding .accumulatingData = 0b10 ∧
      diagEncoding .framingLoss = 1 ∧ diagEncoding .recovered = 6 := by
  refine ⟨fun r => ?_, rfl, rfl, rfl⟩
  cases r <;> rfl

/-! ### Checksum (95_test_vectors.md CS-4, CS-5, CS-6, CS-12) -/

theorem test_checksum_maximum : checksum (Vector.replicate 16 0xFF) = 0xF3 := by decide
theorem test_checksum_wraps : checksum #v[0x0F, 0x80, 0x80, 0, 0, 0, 0, 0, 0, 0, 0, 0, 0, 0, 0, 0] = 0x00 := by decide
theorem test_valid_ignores_header :
    isValid #v[0xAA, 0x72, 0, 0, 0, 0, 0, 0, 0, 0, 0, 0, 0, 0, 0x72, 0] = true := by decide

/-! ### The arms, one step each: the frame's last byte is received -/

/-- DP-R2: the reply is the constant whatever the payload and the configuration. -/
theorem test_range_reply :
    sent (step (loadFrame #v[0x0F, 0x72, 1, 2, 0, 0, 0, 0, 0, 0, 0, 0, 0, 0, 0x75, 0]
      { start with cfgChannel := 7, cfgPower := 1 })) =
      [0x0F, 0x72, 0x1A, 0x16, 0x1D, 0x17, 0xC8, 0, 0, 0, 0, 0, 0, 0, 0x9E, 0] := by decide
/-- TX-2's first reply: the echo byte is drained, and `busy` is clear at the end. -/
theorem test_range_drains_one_byte :
    popped (step (loadFrame reqR { start with rxFifo := [0xEE, 0x0F] })) = [0x00, 0xEE] ∧
    signals (step (loadFrame reqR { start with rxFifo := [0xEE, 0x0F] })) = [(3, 0x72)] ∧
    ended (step (loadFrame reqR { start with rxFifo := [0xEE, 0x0F] })) = some (0, 0, false, 0, 0) := by decide
/-- DP-V2. -/
theorem test_status_reply :
    sent (step (loadFrame reqV { start with cfgChannel := 9, cfgPower := 1 })) =
      [0x0F, 0x76, 0xA8, 0x16, 0xC8, 0, 0, 0, 0xC8, 0, 0, 0, 0, 0, 0xC4, 0] := by decide
/-- DP-V3: the sentinel and the default power. -/
theorem test_status_fallbacks :
    sent (step (loadFrame reqV { start with cfgChannel := 12, cfgPower := 5 })) =
      [0x0F, 0x76, 0, 0, 0x19, 0, 0, 0, 0x19, 0, 0, 0, 0, 0, 0xA8, 0] := by decide
/-- CS-7 and DP-F14: a match tunes, whatever the rest of the payload. -/
theorem test_setFreq_match :
    tuned (step (loadFrame #v[0x0F, 0x46, 0x64, 0x16, 1, 0xFF, 0, 0, 0, 0, 0, 0, 0, 0, 0xC0, 0] start)) = [2] ∧
    ended (step (loadFrame #v[0x0F, 0x46, 0x64, 0x16, 1, 0xFF, 0, 0, 0, 0, 0, 0, 0, 0, 0xC0, 0] start)) =
      some (0, 0, false, 2, 0) ∧
    sent (step (loadFrame #v[0x0F, 0x46, 0x64, 0x16, 1, 0xFF, 0, 0, 0, 0, 0, 0, 0, 0, 0xC0, 0] start)) = [] := by decide
/-- DP-F13: the bytes swapped are no channel. -/
theorem test_setFreq_no_match :
    tuned (step (loadFrame #v[0x0F, 0x46, 0x16, 0x64, 0, 0, 0, 0, 0, 0, 0, 0, 0, 0, 0xC0, 0] start)) = [] ∧
    signals (step (loadFrame #v[0x0F, 0x46, 0x16, 0x64, 0, 0, 0, 0, 0, 0, 0, 0, 0, 0, 0xC0, 0] start)) = [(3, 0x46)] ∧
    ended (step (loadFrame #v[0x0F, 0x46, 0x16, 0x64, 0, 0, 0, 0, 0, 0, 0, 0, 0, 0, 0xC0, 0] start)) =
      some (0, 0, false, 0, 0) := by decide
/-- DP-S1. -/
theorem test_setPower_reply :
    sent (step (loadFrame #v[0x0F, 0x73, 9, 9, 0, 0, 0, 0, 0, 0, 0, 0, 0, 0, 0x85, 0] start)) =
      [0x0F, 0x73, 1, 2, 3, 4, 5, 6, 7, 8, 9, 0x0A, 0x0B, 0x0C, 0xC1, 0] ∧
    ended (step (loadFrame #v[0x0F, 0x73, 9, 9, 0, 0, 0, 0, 0, 0, 0, 0, 0, 0, 0x85, 0] start)) =
      some (0, 0, false, 0, 0) := by decide
/-- DP-O3: the comparison is case-sensitive. -/
theorem test_other_lower_case_f :
    signals (step (loadFrame #v[0x0F, 0x66, 0, 0, 0, 0, 0, 0, 0, 0, 0, 0, 0, 0, 0x66, 0] start)) = [(4, 0x66)] ∧
    sent (step (loadFrame #v[0x0F, 0x66, 0, 0, 0, 0, 0, 0, 0, 0, 0, 0, 0, 0, 0x66, 0] start)) = [] := by decide
/-- S4: a bad checksum is discarded. -/
theorem test_bad_checksum_discarded :
    signals (step (loadFrame badR start)) = [(2, 0x72)] ∧ ended (step (loadFrame badR start)) = some (0, 0, false, 0, 0) := by
  decide

/-! ### The receiver (95_test_vectors.md RX-9, RX-11 to RX-15, P1) -/

theorem test_noise : signals (step (waiting [0x55])) = [(1, 0x55)] := by decide
theorem test_header : ended (step (waiting [0x0F])) = some (1, 1, false, 0, 0) := by decide
theorem test_second_header_is_code :
    ended (step { waiting [0x0F] with rxState := .awaitingCode, cursor := 1 }) = some (2, 2, false, 0, 0) := by decide
theorem test_filter_rejects_code :
    signals (rxStep 0x78 { filtering with rxState := .awaitingCode, cursor := 1 }) = [(5, 0x78)] ∧
    ended (rxStep 0x0F { filtering with rxState := .awaitingCode, cursor := 1 }) = some (0, 0, false, 0, 0) := by decide
theorem test_illegal_state_recovers :
    signals (step { waiting [0x0F] with rxState := .illegal, cursor := 7 }) = [(6, 0x0F)] ∧
    ended (step { waiting [0x0F] with rxState := .illegal, cursor := 7 }) = some (0, 0, false, 0, 0) := by decide
theorem test_overflow_recovers :
    signals (step { waiting [0x0F] with cursor := 15 }) = [(6, 0x0F)] ∧
    signals (step { waiting [0x76] with rxState := .awaitingCode, cursor := 15 }) = [(6, 0x76)] := by decide
theorem test_all_zero_frame_is_other :
    signals (step { waiting [0x00] with rxState := .accumulatingData, cursor := 15 }) = [(4, 0x00)] := by decide
theorem test_filter_before_overflow :
    signals (rxStep 0x0F { filtering with rxState := .awaitingCode, cursor := 15 }) = [(5, 0x0F)] := by decide

/-! ### The environment (60_exceptions.md R147, R148) -/

theorem test_duties :
    step { waiting [] with script := [.passReq] } = .fault .passOverlap ∧
    step { waiting [] with script := [.arrive 1, .cfgPower 0] } = .fault .cfgWriteDuringPass ∧
    readByte (waiting []) (fun _ s => .next s) = .fault .readEmptyFifo := ⟨rfl, rfl, rfl⟩
/-- A duty broken in the turn of the result event of a reply: after 2 turns of the pass, 16 writes, the delay and the drain. -/
theorem test_duty_late_in_reply :
    step { almost reqR with rxFifo := [0x00], script := List.replicate 20 .yield ++ [.passReq] } = .fault .passOverlap ∧
    ∃ t, step { almost reqR with rxFifo := [0x00], script := List.replicate 21 .yield ++ [.passReq] } = .next t :=
  ⟨rfl, _, rfl⟩
/-- A byte that arrives before the pass's `Avail` is seen by it. -/
theorem test_arrival_before_avail :
    popped (step { waiting [] with script := [.arrive 0x55, .yield, .arrive 0x66] }) = [0x55] := by decide

/-! ### Witnesses: states and operands that meet the hypotheses of each statement -/

theorem witness_DecodeInvertsEncode :
    (Instr.range ackT).wf = true ∧ (Instr.status ackT).wf = true ∧ (Instr.setFreq 0xFFFF zeroRest).wf = true ∧
      (Instr.setPower ackT).wf = true ∧ (Instr.other 0x00 ackT).wf = true ∧ (Instr.other 0xFF ackT).wf = true := by decide

theorem witness_EncodeReproducesDecodedFrame : reqF5732[0] = 0x0F ∧ decodeFrame reqF5732 = .ok (.setFreq 5732 zeroRest) :=
  ⟨rfl, rfl⟩

theorem witness_CommandByteSelectsArm :
    (reqR[1] = 0x72 ∧ decodeFrame reqR = .ok (.range zeroPayload)) ∧
    (reqV[1] = 0x76 ∧ decodeFrame reqV = .ok (.status zeroPayload)) ∧
    (reqF5732[1] = 0x46 ∧ decodeFrame reqF5732 = .ok (.setFreq 5732 zeroRest)) ∧
    (reqS[1] = 0x73 ∧ decodeFrame reqS = .ok (.setPower zeroPayload)) ∧
    (reqX[1] ≠ 0x72 ∧ reqX[1] ≠ 0x76 ∧ reqX[1] ≠ 0x46 ∧ reqX[1] ≠ 0x73 ∧ decodeFrame reqX = .ok (.other 0x78 zeroPayload)) :=
  ⟨⟨rfl, rfl⟩, ⟨rfl, rfl⟩, ⟨rfl, rfl⟩, ⟨rfl, rfl⟩, by decide, by decide, by decide, by decide, rfl⟩

theorem witness_ChecksumIsSumModulo256 : (Vector.replicate 16 0x00 : Buffer) = Vector.replicate 16 0x00 := rfl

theorem witness_ChecksumDetectsByteChanges :
    ((0x00 : Byte) ≠ reqR[1] ∧ (0x01 : Byte) ≠ reqR[13]) ∧ csumOffsets.reverse.Perm csumOffsets :=
  ⟨by decide, List.reverse_perm _⟩

/-- A header step from reset, a data step into the checksum's place, and a last byte. -/
theorem witness_RunningAccumulatorEqualsChecksum :
    (RxInv start ∧ AccAgrees 0xAA start ∧ ∃ t, rxStep 0x0F start = .next t) ∧
    (RxInv { almost reqR with cursor := 14 } ∧ AccAgrees 0x72 { almost reqR with cursor := 14 } ∧
      ∃ t, rxStep 0x72 { almost reqR with cursor := 14 } = .next t) ∧
    (RxInv (almost reqR) ∧ AccAgrees 0x72 (almost reqR) ∧ (almost reqR).rxState = .accumulatingData ∧
      (almost reqR).cursor = 15) :=
  ⟨⟨.inl ⟨rfl, rfl⟩, by unfold AccAgrees; decide, _, rfl⟩,
    ⟨.inr (.inr ⟨rfl, by decide⟩), by unfold AccAgrees; decide, _, rfl⟩,
    .inr (.inr ⟨rfl, by decide⟩), by unfold AccAgrees; decide, rfl, rfl⟩

theorem witness_HalfFieldsAreLittleEndian : (4 : Nat) < 16 ∧ 4 ≠ (halfOffset .at2).val ∧ 4 ≠ (halfOffset .at2).val + 1 := by decide

theorem witness_LookupsFollowTables :
    testParams.bidirectional = true ∧ (9 : Byte).toNat < 10 ∧ 10 ≤ (10 : Byte).toNat ∧ 10 ≤ (255 : Byte).toNat ∧
      (1 : Byte).toNat < 2 ∧ 2 ≤ (2 : Byte).toNat := by decide

/-- The invariant holds in the middle of a frame too, and a step goes on from there. -/
theorem witness_StepKeepsMachineInvariant :
    MachineInv (waiting [0x0F]) ∧ (∃ t, step (waiting [0x0F]) = .next t) ∧
    MachineInv { almost reqR with rxFifo := [0x00] } ∧ ∃ t, step { almost reqR with rxFifo := [0x00] } = .next t :=
  ⟨⟨.inl ⟨rfl, rfl⟩, by decide, rfl, by decide⟩, ⟨_, rfl⟩,
    ⟨.inr (.inr ⟨rfl, by decide⟩), by decide, rfl, by decide⟩, _, rfl⟩

theorem witness_SentBytesStayValidFrames :
    (loadFrame reqR start).params.wf = true ∧ SinkFramed (loadFrame reqR start) ∧
      ∃ t, step (loadFrame reqR start) = .next t :=
  ⟨by decide, ⟨[], rfl, by simp⟩, _, rfl⟩

theorem witness_ReadsStayGuardedByAvail :
    readsGuarded false (loadFrame reqR { start with rxFifo := [0xEE] }).trace = true ∧
      ∃ t, step (loadFrame reqR { start with rxFifo := [0xEE] }) = .next t := ⟨rfl, _, rfl⟩

/-- Two states whose transmit buffers and stale receive bytes differ; both complete the frame, or both stop. -/
theorem witness_BufferContentsUnobservable :
    SameButStaleBytes { almost reqR with rxFifo := [0x00] }
      { almost reqR with rxFifo := [0x00], rxbuf := reqR.set 15 0x55, txbuf := reqX } ∧
    (∃ t, step { almost reqR with rxFifo := [0x00] } = .next t) ∧
    SameButStaleBytes { waiting [] with script := [.passReq] } { waiting [] with script := [.passReq], txbuf := reqX } ∧
    step { waiting [] with script := [.passReq] } = .fault .passOverlap :=
  ⟨⟨rfl, by decide⟩, ⟨_, rfl⟩, ⟨rfl, by decide⟩, rfl⟩

theorem witness_BytesConsumedOnceInOrder :
    ∃ t, step (loadFrame reqR { start with rxFifo := [0xEE, 0x0F], script := [.arrive 7] }) = .next t := ⟨_, rfl⟩

theorem witness_ConfigurationWrittenOnlyByMatch :
    (loadFrame reqF5732 start).passRunning = true ∧ ∃ t, step (loadFrame reqF5732 start) = .next t := ⟨rfl, _, rfl⟩

theorem witness_HeaderByteStartsFrame : start.rxState = .awaitingHeader ∧ start.cursor ≠ 15 := by decide

theorem witness_NoiseByteResynchronizes :
    start.rxState = .awaitingHeader ∧ (0x0E : Byte) ≠ 0x0F ∧ takeTurns 1 start.script = .ok ([], []) :=
  ⟨rfl, by decide, rfl⟩

/-- Both clauses: the filter off, the filter holding the code, and the filter rejecting it. -/
theorem witness_CodeFilterDecidesFrame :
    ({ start with rxState := .awaitingCode, cursor := 1 } : State).params.codeFilterEnabled = false ∧
    (0x72 : Byte) ∈ filtering.params.codeFilterSet ∧ ({ filtering with rxState := .awaitingCode, cursor := 1 } : State).cursor ≠ 15 ∧
    filtering.params.codeFilterEnabled = true ∧ (0x0F : Byte) ∉ filtering.params.codeFilterSet ∧
    takeTurns 1 filtering.script = .ok ([], []) := ⟨rfl, by decide, by decide, rfl, by decide, rfl⟩

theorem witness_DataByteIsStored :
    ({ almost reqR with cursor := 14 } : State).rxState = .accumulatingData ∧ ({ almost reqR with cursor := 14 } : State).cursor ≠ 15 := by
  decide

/-- Both clauses: a valid frame whose instruction completes, and an invalid one. -/
theorem witness_LastByteDispatchesOrDiscards :
    (almost reqX).rxState = .accumulatingData ∧ (almost reqX).cursor = 15 ∧
    isValid ((almost reqX).rxbuf.set 15 0x00) = true ∧
    decodeFrame ((almost reqX).rxbuf.set 15 0x00) = .ok (.other 0x78 zeroPayload) ∧
    (∃ t, exec (.other 0x78 zeroPayload) { almost reqX with rxbuf := (almost reqX).rxbuf.set 15 0x00 } = .next t) ∧
    isValid ((almost reqX).rxbuf.set 15 0x01) = false ∧ takeTurns 1 (almost reqX).script = .ok ([], []) :=
  ⟨rfl, rfl, by decide, rfl, ⟨_, rfl⟩, by decide, rfl⟩

/-- The three corrupted starts. -/
theorem witness_CorruptedReceiverRecovers :
    ({ start with rxState := .illegal, cursor := 7 } : State).rxState = .illegal ∧
    (({ start with cursor := 15 } : State).rxState = .awaitingHeader ∧ ({ start with cursor := 15 } : State).cursor = 15) ∧
    (({ start with rxState := .awaitingCode, cursor := 15 } : State).rxState = .awaitingCode ∧
      codeAccepted start.params 0x76 = true) ∧
    takeTurns 1 start.script = .ok ([], []) := ⟨rfl, ⟨rfl, rfl⟩, ⟨rfl, rfl⟩, rfl⟩

theorem witness_CursorNeverPassesSixteen :
    (∃ t, rxStep 0x00 (almost reqR) = .next t) ∧ (nextCursor (almost reqR).cursor).toNat = 16 ∧
      ∃ t, rxStep 0x0F start = .next t := ⟨⟨_, rfl⟩, rfl, _, rfl⟩

/-- From a corrupted state. -/
theorem witness_RecoversWithinSixteenBytes :
    (List.replicate 16 (0x0F : Byte)).length = 16 ∧
      ∃ u, feed (List.replicate 16 0x0F) { start with rxState := .accumulatingData, cursor := 0 } = .next u :=
  ⟨rfl, _, rfl⟩

theorem witness_PaddingForcesResynchronization :
    (List.replicate 16 (0x00 : Byte)).length = 16 ∧ (∀ b ∈ List.replicate 16 (0x00 : Byte), b ≠ 0x0F) ∧
      ∃ t, feed (List.replicate 16 0x00) { start with rxState := .accumulatingData, cursor := 2 } = .next t :=
  ⟨rfl, by decide, _, rfl⟩

/-- Both clauses: a byte waiting, and one that completes a frame that decodes. -/
theorem witness_StepRunsDecodedInstruction :
    ({ almost reqX with rxFifo := [0x00, 0x0F] } : State).passRunning = true ∧
    takeTurns 1 (almost reqX).script = .ok ([], []) ∧
    ({ almost reqX with rxFifo := [0x00, 0x0F] } : State).rxFifo ++ [] = (0x00 : Byte) :: [0x0F] ∧
    (almost reqX).rxState = .accumulatingData ∧ (almost reqX).cursor = 15 ∧
    decodeFrame ((almost reqX).rxbuf.set 15 0x00) = .ok (.other 0x78 zeroPayload) := ⟨rfl, rfl, rfl, rfl, rfl, rfl⟩

/-- Both clauses: a frame that decodes, and an invalid one. -/
theorem witness_SixteenBytesRunTheFrame :
    (waiting reqF5732.toList).passRunning = true ∧ (waiting reqF5732.toList).rxState = .awaitingHeader ∧
    (waiting reqF5732.toList).cursor = 0 ∧ reqF5732[0] = 0x0F ∧ codeAccepted testParams reqF5732[1] = true ∧
    (waiting reqF5732.toList).rxFifo = reqF5732.toList ++ [] ∧
    takeTurns 32 (waiting reqF5732.toList).script = .ok ([], []) ∧
    decodeFrame reqF5732 = .ok (.setFreq 5732 zeroRest) ∧
    badR[0] = 0x0F ∧ codeAccepted testParams badR[1] = true ∧ isValid badR = false :=
  ⟨rfl, rfl, rfl, rfl, rfl, rfl, rfl, rfl, rfl, rfl, by decide⟩

theorem witness_PassEndsWhenFifoIsEmpty :
    (waiting []).passRunning = true ∧ (waiting []).rxFifo = [] ∧ takeTurns 1 (waiting []).script = .ok ([], []) :=
  ⟨rfl, rfl, rfl⟩

/-- Each kind of move, and none. -/
theorem witness_IdleStepsAreEnvironmentMoves :
    start.passRunning = false ∧ start.script = [] ∧
    ({ start with script := [.arrive 1] } : State).script = .arrive 1 :: [] ∧
    ({ start with script := [.passReq] } : State).script = .passReq :: [] ∧
    ({ start with script := [.cfgChannel 2] } : State).script = .cfgChannel 2 :: [] ∧
    ({ start with script := [.cfgPower 1] } : State).script = .cfgPower 1 :: [] ∧
    ({ start with script := [.yield] } : State).script = .yield :: [] := ⟨rfl, rfl, rfl, rfl, rfl, rfl, rfl⟩

theorem witness_OnlyBrokenDutiesStopAStep :
    step { waiting [] with script := [.cfgChannel 3] } = .fault .cfgWriteDuringPass := rfl

theorem witness_DutifulEnvironmentNeverStops :
    takeTurns 20 ({ start with script := [.arrive 1, .yield] } : State).script = .ok ([1], []) ∧
      takeTurns 22 ({ start with script := [.arrive 1, .yield] } : State).script = .ok ([1], []) := ⟨rfl, rfl⟩

/-- Each clause: an empty FIFO, the three broken duties, the first turn, the `ReadByte`'s turn, the diagnostic's turn in each
state (with the corrupted cursors), and a dispatch that faults. -/
theorem witness_BrokenDutiesFault :
    (start.rxFifo = [] ∧ takeTurns 1 start.script = .ok ([], [])) ∧
    (([.arrive 1, .passReq] : List EnvMove) = [1].map .arrive ++ .passReq :: [] ∧
      ([.cfgChannel 3] : List EnvMove) = [].map .arrive ++ .cfgChannel 3 :: [] ∧
      ([.cfgPower 3] : List EnvMove) = [].map .arrive ++ .cfgPower 3 :: []) ∧
    ((waiting []).passRunning = true ∧ takeTurns 1 [.passReq] = .error .passOverlap) ∧
    ((waiting [0x55]).rxFifo ++ [] = (0x55 : Byte) :: [] ∧ takeTurns 1 [.yield, .passReq] = .ok ([], [.passReq])) ∧
    (takeTurns 1 [.yield, .yield, .passReq] = .ok ([], [.yield, .passReq]) ∧
      takeTurns 1 [.yield, .passReq] = .ok ([], [.passReq])) ∧
    ((waiting [0x55]).rxState = .awaitingHeader ∧ (0x55 : Byte) ≠ 0x0F) ∧
    codeAccepted filtering.params 0x0F = false ∧
    ((almost badR).rxState = .accumulatingData ∧ (almost badR).cursor = 15 ∧
      isValid ((almost badR).rxbuf.set 15 0x00) = false) ∧
    (decodeFrame ((almost reqX).rxbuf.set 15 0x00) = .ok (.other 0x78 zeroPayload) ∧
      exec (.other 0x78 zeroPayload)
        { almost reqX with
          rxbuf := (almost reqX).rxbuf.set 15 0x00, rxFifo := [] ++ [], script := [.passReq]
          trace := (almost reqX).trace ++ [.avail true, .readByte 0x00] } = .fault .passOverlap) :=
  ⟨⟨rfl, rfl⟩, ⟨rfl, rfl, rfl⟩, ⟨rfl, rfl⟩, ⟨rfl, rfl⟩, ⟨rfl, rfl⟩, ⟨rfl, by decide⟩, by decide,
    ⟨rfl, rfl, by decide⟩, rfl, rfl⟩

/-- A duty broken while a reply is sent, at the drain's `ReadByte`, and before the result event with and without a drained
byte; and before SETFREQ's driver call and its event, on a match and on none. -/
theorem witness_BrokenDutyDuringDispatchFaults :
    ReplyBroken { start with script := List.replicate 15 .yield ++ [.cfgPower 0] } .cfgWriteDuringPass ∧
    ReplyBroken { start with script := List.replicate 18 .yield ++ [.passReq] } .passOverlap ∧
    ReplyBroken { start with rxFifo := [0xEE], script := List.replicate 18 .yield ++ [.passReq] } .passOverlap ∧
    ReplyBroken { start with rxFifo := [0xEE], script := List.replicate 19 .yield ++ [.passReq] } .passOverlap ∧
    ((5732 : Half) ∈ start.params.channelTable.toList ∧ takeTurns 2 [.yield, .cfgPower 0] = .error .cfgWriteDuringPass) ∧
    (6000 : Half) ∉ start.params.channelTable.toList ∧ takeTurns 1 [.arrive 1, .passReq] = .error .passOverlap :=
  ⟨.inl rfl, .inr ⟨[], [.passReq], rfl, .inl ⟨rfl, rfl⟩⟩, .inr ⟨[], [.passReq], rfl, .inr ⟨by decide, rfl⟩⟩,
    .inr ⟨[], [.yield, .passReq], rfl, .inr ⟨by decide, rfl⟩⟩, ⟨by decide, rfl⟩, by decide, rfl⟩

/-- A byte waiting at the drain read, and none. -/
theorem witness_SendEnv :
    SendEnv { start with rxFifo := [0xEE, 0x0F] } (some 0xEE) [0x0F] [] ∧ SendEnv start none [] [] ∧
      SendEnv { start with script := List.replicate 17 .yield ++ [.arrive 5] } (some 5) [] [] :=
  ⟨⟨[], [], rfl, .inr ⟨0xEE, [0x0F], [], rfl, rfl, rfl, rfl⟩⟩, ⟨[], [], rfl, .inl ⟨rfl, rfl, rfl, rfl⟩⟩,
    [5], [], rfl, .inr ⟨5, [], [], rfl, rfl, rfl, rfl⟩⟩

theorem witness_TransmitSendsThenDrainsOnce :
    (∀ (k : Nat) (h : k < 14), reqR[k] = ({ start with txbuf := badR } : State).txbuf[k]) ∧
      reqR[14] = checksum ({ start with txbuf := badR } : State).txbuf ∧ reqR[15] = 0x00 ∧
      SendEnv { start with txbuf := badR } none [] [] :=
  ⟨by decide, by decide, rfl, [], [], rfl, .inl ⟨rfl, rfl, rfl, rfl⟩⟩

/-- Each clause: none waiting, one waiting, one that arrives in the turn, and a duty broken in either turn. -/
theorem witness_DrainReadDiscardsOldestByte :
    (takeTurns 1 start.script = .ok ([], []) ∧ start.rxFifo ++ [] = []) ∧
    (({ start with rxFifo := [0xEE, 0x0F] } : State).rxFifo ++ [] = (0xEE : Byte) :: [0x0F] ∧
      takeTurns 1 ([] : List EnvMove) = .ok ([], [])) ∧
    (takeTurns 1 [.arrive 5, .yield, .arrive 6] = .ok ([5], [.arrive 6]) ∧ start.rxFifo ++ [5] = (5 : Byte) :: [] ∧
      takeTurns 1 [.arrive 6] = .ok ([6], [])) ∧
    takeTurns 1 [.arrive 5, .passReq] = .error .passOverlap ∧
    (takeTurns 1 [.arrive 5, .yield, .passReq] = .ok ([5], [.passReq]) ∧ takeTurns 1 [.passReq] = .error .passOverlap) :=
  ⟨⟨rfl, rfl⟩, ⟨rfl, rfl⟩, ⟨rfl, rfl, rfl⟩, rfl, rfl, rfl⟩

/-- The replying arms' environment, with a byte drained and without; a byte that arrives after the drain waits. -/
theorem witness_ReplyEnv :
    ReplyEnv { start with rxFifo := [0xEE, 0x0F] } (some 0xEE) [0x0F] [] ∧ ReplyEnv start none [] [] ∧
      ReplyEnv { start with script := List.replicate 18 .yield ++ [.arrive 5] } none [5] [] :=
  ⟨⟨[0x0F], [], [], witness_SendEnv.1, rfl, rfl⟩, ⟨[], [], [], witness_SendEnv.2.1, rfl, rfl⟩,
    [], [.arrive 5], [5], ⟨[], [.arrive 5], rfl, .inl ⟨rfl, rfl, rfl, rfl⟩⟩, rfl, rfl⟩

theorem witness_RangeRepliesFixedBounds :
    ReplyEnv { start with rxFifo := [0xEE, 0x0F] } (some 0xEE) [0x0F] [] ∧ ReplyEnv start none [] [] :=
  ⟨witness_ReplyEnv.1, witness_ReplyEnv.2.1⟩

/-- A layout other than the default one is well formed too. -/
theorem witness_StatusReportsFrequencyAndPower :
    start.params.vReplyLayout.wf = true ∧ (VReplyLayout.mk .at12 .at2 11 4 .at8).wf = true ∧
      13 ∉ start.params.vReplyLayout.offsets ∧ ReplyEnv start none [] [] :=
  ⟨by decide, by decide, by decide, witness_ReplyEnv.2.1⟩

/-- The reply of DP-V1. -/
def replyV00 : Buffer := #v[0x0F, 0x76, 0x1A, 0x16, 0x19, 0, 0, 0, 0x19, 0, 0, 0, 0, 0, 0xD8, 0]

theorem witness_StatusDefaultLayoutBytes :
    start.params.vReplyLayout = VReplyLayout.mk .at2 .at4 6 7 .at8 ∧ replyV00[0] = 0x0F ∧ replyV00[1] = 0x76 ∧
    replyV00[2].toNat = (chanFreq start.params start.cfgChannel).toNat % 256 ∧
    replyV00[3].toNat = (chanFreq start.params start.cfgChannel).toNat / 256 ∧
    replyV00[4].toNat = (powVal start.params start.cfgPower).toNat % 256 ∧
    replyV00[5].toNat = (powVal start.params start.cfgPower).toNat / 256 ∧
    replyV00[6] = 0x00 ∧ replyV00[7] = 0x00 ∧ replyV00[8] = replyV00[4] ∧ replyV00[9] = replyV00[5] ∧
    replyV00[10] = 0x00 ∧ replyV00[11] = 0x00 ∧ replyV00[12] = 0x00 ∧ replyV00[13] = 0x00 ∧
    replyV00[14] = 0x76 + replyV00[2] + replyV00[3] + replyV00[4] + replyV00[5] + replyV00[8] + replyV00[9] ∧
    replyV00[15] = 0x00 ∧ ReplyEnv start none [] [] := by
  refine ⟨?_, ?_, ?_, ?_, ?_, ?_, ?_, ?_, ?_, ?_, ?_, ?_, ?_, ?_, ?_, ?_, ?_, witness_ReplyEnv.2.1⟩ <;> decide

/-- The first and the last index. -/
theorem witness_SetFreqMatchTunesChannel :
    ((0 : Byte).toNat < 10 ∧ start.params.channelTable.toList[0]? = some 5658) ∧
    ((9 : Byte).toNat < 10 ∧ start.params.channelTable.toList[9]? = some 5800 ∧
      ∀ k, k < (9 : Byte).toNat → start.params.channelTable.toList[k]? ≠ some 5800) ∧
    takeTurns 2 start.script = .ok ([], []) := by
  refine ⟨by decide, ⟨by decide, by decide, ?_⟩, rfl⟩
  intro k hk
  have hk' : k < 9 := hk
  interval_cases k <;> decide

theorem witness_SetFreqNoMatchChangesNothing :
    (5659 : Half) ∉ start.params.channelTable.toList ∧ (6000 : Half) ∉ start.params.channelTable.toList ∧
      takeTurns 1 start.script = .ok ([], []) := ⟨by decide, by decide, rfl⟩

theorem witness_SetPowerAcknowledgesOnly : start.params.sAckPayload = ackT ∧ ReplyEnv start none [] [] :=
  ⟨rfl, witness_ReplyEnv.2.1⟩

theorem witness_OtherCodeOnlySignals : takeTurns 1 ({ start with script := [.arrive 9] } : State).script = .ok ([9], []) := rfl

theorem witness_ReplyArmsFrame :
    (∃ t, exec (.range ackT) start = .next t) ∧ (∃ t, exec (.status ackT) start = .next t) ∧
      ∃ t, exec (.setPower ackT) start = .next t := ⟨⟨_, rfl⟩, ⟨_, rfl⟩, _, rfl⟩

/-- On a match and on none. -/
theorem witness_SetFreqFrame :
    (∃ t, exec (.setFreq 5732 zeroRest) start = .next t) ∧ (5732 : Half) ∈ start.params.channelTable.toList ∧
    (∃ t, exec (.setFreq 6000 zeroRest) start = .next t) ∧ (6000 : Half) ∉ start.params.channelTable.toList :=
  ⟨⟨_, rfl⟩, by decide, ⟨_, rfl⟩, by decide⟩

theorem witness_OtherCodeFrame : ∃ t, exec (.other 0x78 ackT) start = .next t := ⟨_, rfl⟩

theorem witness_DispatchSignalsOnceAtEnd :
    decodeFrame reqX = .ok (.other 0x78 zeroPayload) ∧ (∃ t, exec (.other 0x78 zeroPayload) start = .next t) ∧
    decodeFrame reqS = .ok (.setPower zeroPayload) ∧ ∃ t, exec (.setPower zeroPayload) start = .next t :=
  ⟨rfl, ⟨_, rfl⟩, rfl, _, rfl⟩

theorem witness_DispatchRepliesOrTunesAtMostOnce :
    (∃ t, exec (.range ackT) start = .next t) ∧ ∃ t, exec (.setFreq 5732 zeroRest) start = .next t := ⟨⟨_, rfl⟩, _, rfl⟩

end Sys2Proof.Tests
end

namespace Sys2Proof.Machine

/-! ### Every `ReadByte` follows an `Avail` that answered true (O16)

Whatever a step appends to the trace is guarded on its own: the pass and the drain read each append their `ReadByte` right
behind an `Avail` that answered true, and every other event is no `ReadByte`. -/

/-- An event guarded on its own, one that is no `ReadByte`, keeps the trace guarded. -/
theorem readsGuarded_emit {e : Event} {s : State} (he : readsGuarded false [e] = true)
    (hs : readsGuarded false s.trace = true) : readsGuarded false (emit e s).trace = true :=
  readsGuarded_append hs he

theorem exec_keeps_readsGuarded {i : Instr} {s t : State} (hs : readsGuarded false s.trace = true)
    (h : exec i s = .next t) : readsGuarded false t.trace = true := by
  obtain ⟨c, body, x, fifo, rest, -, -, rfl⟩ | ⟨freq, other, j, a1, r1, a2, r2, -, -, -, -, rfl⟩ |
    ⟨e, x, a, r, -, rfl, -⟩ := exec_cases h
  · have hsent := readsGuarded_append hs (readsGuarded_sendEvents s.params.drainDelay (finalizeBuffer body))
    have hdrained := readsGuarded_append hsent (readsGuarded_drainEvents x)
    exact readsGuarded_append hdrained rfl
  · have hwritten : readsGuarded false (writeCfgChannel j s).trace = true := readsGuarded_emit rfl hs
    exact readsGuarded_emit rfl (readsGuarded_emit rfl hwritten)
  · exact readsGuarded_emit rfl hs

theorem completeFrame_keeps_readsGuarded {s t : State} (hs : readsGuarded false s.trace = true)
    (h : completeFrame s = .next t) : readsGuarded false t.trace = true := by
  obtain ⟨i, -, hexec⟩ | ⟨e, a, r, -, -, rfl⟩ := completeFrame_cases h
  · exact exec_keeps_readsGuarded hs hexec
  · exact readsGuarded_emit rfl hs

theorem rxStep_keeps_readsGuarded {b : Byte} {s t : State} (hs : readsGuarded false s.trace = true)
    (h : rxStep b s = .next t) : readsGuarded false t.trace = true := by
  obtain ⟨r', -, rfl, -⟩ | ⟨e, a, r, -, rfl, -⟩ | ⟨u, -, -, hcomplete, rfl⟩ := rxStep_cases h
  · exact hs
  · exact readsGuarded_emit rfl hs
  · exact completeFrame_keeps_readsGuarded (s := appendByte b s) (t := u) hs hcomplete

/-- The pop of a pass iteration stands right behind the `Avail` that saw the byte. -/
theorem fetched_keeps_readsGuarded (b : Byte) (q : List Byte) (r : List EnvMove) {s : State}
    (hs : readsGuarded false s.trace = true) : readsGuarded false (fetched b q r s).trace = true :=
  readsGuarded_append hs rfl

theorem passStep_keeps_readsGuarded {s t : State} (hs : readsGuarded false s.trace = true)
    (h : passStep s = .next t) : readsGuarded false t.trace = true := by
  obtain ⟨a, r, -, -, rfl⟩ | ⟨a1, r1, a2, r2, b, q, -, -, -, hstep⟩ := passStep_cases h
  · exact readsGuarded_emit rfl hs
  · exact rxStep_keeps_readsGuarded (fetched_keeps_readsGuarded b (q ++ a2) r2 hs) hstep

/-- The environment's moves between passes are no effects of the block. -/
@[simp] theorem applyIdleMove_trace (m : EnvMove) (s : State) : (applyIdleMove m s).trace = s.trace := by
  cases m <;> rfl

theorem idleStep_trace {s t : State} (h : idleStep s = .next t) : t.trace = s.trace := by
  obtain ⟨-, rfl⟩ | ⟨m, rest, -, rfl⟩ := idleStep_cases h
  · rfl
  · exact applyIdleMove_trace m _

/-- Settles O16: a step of a pass appends only guarded events, and a step between passes appends none. -/
theorem readsStayGuardedByAvail : Obligations.ReadsStayGuardedByAvail := by
  intro s t hs h
  cases hrun : s.passRunning with
  | true =>
    rw [step_running hrun] at h
    exact passStep_keeps_readsGuarded hs h
  | false =>
    rw [step_idle hrun] at h
    rwa [idleStep_trace h]

end Sys2Proof.Machine

namespace Sys2Proof.Machine

/-! ### Reset (O12, O13) -/

/-- Settles O12: the reset state is written with these values. -/
theorem resetAwaitsHeader : Obligations.ResetAwaitsHeader := ⟨rfl, rfl, rfl, rfl, rfl, rfl⟩

theorem defaultParams_wf : defaultParams.wf = true := by decide

theorem machineInv_reset : MachineInv State.reset where
  receiver := .inl ⟨rfl, rfl⟩
  header := fun h => absurd rfl h
  notBusy := rfl
  params := defaultParams_wf

/-- Nothing sent is framed, as no frames at all. -/
theorem sinkFramed_of_sink_nil {s : State} (h : txSink s = []) : SinkFramed s := ⟨[], h, by simp⟩

/-- Settles O13: the invariant holds at reset, and the empty trace sends nothing and reads nothing. -/
theorem resetMeetsMachineInvariant : Obligations.ResetMeetsMachineInvariant :=
  ⟨machineInv_reset, rfl, sinkFramed_of_sink_nil rfl, rfl, rfl⟩

/-! ### Every step keeps the machine invariant (O14)

A receiver step advances the receiver, or resynchronises it at once, or completes a frame and then resynchronises it.  What
the invariant says of the receiver is at stake in the first case alone; `busy` and the parameters are at stake only where a
dispatched arm runs. -/

/-- No arm writes the parameters (10_state.md R29). -/
theorem exec_params {i : Instr} {s t : State} (h : exec i s = .next t) : t.params = s.params := by
  obtain ⟨c, body, x, fifo, rest, -, -, rfl⟩ | ⟨freq, other, j, a1, r1, a2, r2, -, -, -, -, rfl⟩ |
    ⟨e, x, a, r, -, rfl, -⟩ := exec_cases h <;> rfl

/-- An arm that replies clears `busy`, and no other arm writes it (43_reply_transmit.md R137). -/
theorem exec_keeps_notBusy {i : Instr} {s t : State} (hs : s.busy = false) (h : exec i s = .next t) :
    t.busy = false := by
  obtain ⟨c, body, x, fifo, rest, -, -, rfl⟩ | ⟨freq, other, j, a1, r1, a2, r2, -, -, -, -, rfl⟩ |
    ⟨e, x, a, r, -, rfl, -⟩ := exec_cases h
  · rfl
  · exact hs
  · exact hs

theorem completeFrame_params {s t : State} (h : completeFrame s = .next t) : t.params = s.params := by
  obtain ⟨i, -, hexec⟩ | ⟨e, a, r, -, -, rfl⟩ := completeFrame_cases h
  · exact exec_params hexec
  · rfl

theorem completeFrame_keeps_notBusy {s t : State} (hs : s.busy = false) (h : completeFrame s = .next t) :
    t.busy = false := by
  obtain ⟨i, -, hexec⟩ | ⟨e, a, r, -, -, rfl⟩ := completeFrame_cases h
  · exact exec_keeps_notBusy hs hexec
  · exact hs

theorem RxInv.cursor_of_awaitingHeader {s : State} (h : RxInv s) (hs : s.rxState = .awaitingHeader) :
    s.cursor = 0 := by
  simpa [RxInv, hs] using h

theorem RxInv.cursor_of_awaitingCode {s : State} (h : RxInv s) (hs : s.rxState = .awaitingCode) :
    s.cursor = 1 := by
  simpa [RxInv, hs] using h

theorem RxInv.cursor_of_accumulatingData {s : State} (h : RxInv s) (hs : s.rxState = .accumulatingData) :
    2 ≤ s.cursor.toNat := by
  simpa [RxInv, hs] using h

/-- The header byte appended at offset 0 begins a frame. -/
theorem machineInv_of_header {s : State} (hs : MachineInv s) (hc : s.cursor = 0) :
    MachineInv (goTo .awaitingCode (nextCursor s.cursor) (appendByte headerByte s)) where
  receiver := .inr (.inl ⟨rfl, by rw [goTo_cursor, hc]; rfl⟩)
  header := fun _ => by simp [putAt_get, hc]
  notBusy := hs.notBusy
  params := hs.params

/-- A byte appended past the header, in a frame in progress, goes on with the frame. -/
theorem machineInv_of_frameByte {s : State} (b : Byte) (hs : MachineInv s) (hstate : s.rxState ≠ .awaitingHeader)
    (hpos : 1 ≤ s.cursor.toNat) (hc : s.cursor ≠ 15) :
    MachineInv (goTo .accumulatingData (nextCursor s.cursor) (appendByte b s)) where
  receiver := .inr (.inr ⟨rfl, by rw [goTo_cursor, storedCursor_toNat hc]; omega⟩)
  header := fun _ => by
    rw [goTo_rxbuf, appendByte_rxbuf, putAt_get, if_neg (by omega)]
    exact hs.header hstate
  notBusy := hs.notBusy
  params := hs.params

/-- A resynchronised receiver meets its part of the invariant, whatever its buffer holds. -/
theorem machineInv_resync {s : State} (hbusy : s.busy = false) (hparams : s.params.wf = true) :
    MachineInv (resync s) where
  receiver := .inl ⟨rfl, rfl⟩
  header := fun h => absurd rfl h
  notBusy := hbusy
  params := hparams

/-- The invariant reads the receiver, `busy` and the parameters alone. -/
theorem MachineInv.congr {s t : State} (hs : MachineInv s) (hstate : t.rxState = s.rxState)
    (hcursor : t.cursor = s.cursor) (hrxbuf : t.rxbuf = s.rxbuf) (hbusy : t.busy = s.busy)
    (hparams : t.params = s.params) : MachineInv t where
  receiver := by simpa only [RxInv, hstate, hcursor] using hs.receiver
  header := by simpa only [hstate, hrxbuf] using hs.header
  notBusy := hbusy.trans hs.notBusy
  params := by rw [hparams, hs.params]

theorem rxStep_keeps_machineInv {b : Byte} {s t : State} (hs : MachineInv s) (h : rxStep b s = .next t) :
    MachineInv t := by
  obtain ⟨r', hc, rfl, ⟨hstate, rfl, rfl⟩ | ⟨hstate, -, rfl⟩ | ⟨hstate, rfl⟩⟩ | ⟨e, a, r, -, rfl, -⟩ |
    ⟨u, -, -, hcomplete, rfl⟩ := rxStep_cases h
  · exact machineInv_of_header hs (hs.receiver.cursor_of_awaitingHeader hstate)
  · have hone : s.cursor.toNat = 1 := by rw [hs.receiver.cursor_of_awaitingCode hstate]; rfl
    exact machineInv_of_frameByte b hs (by simp [hstate]) hone.ge hc
  · have htwo := hs.receiver.cursor_of_accumulatingData hstate
    exact machineInv_of_frameByte b hs (by simp [hstate]) (by omega) hc
  · have hresync : MachineInv (resync (appendByte b s)) := machineInv_resync hs.notBusy hs.params
    exact hresync.congr rfl rfl rfl rfl rfl
  · refine machineInv_resync (completeFrame_keeps_notBusy (s := appendByte b s) hs.notBusy hcomplete) ?_
    rw [completeFrame_params hcomplete]
    exact hs.params

theorem passStep_keeps_machineInv {s t : State} (hs : MachineInv s) (h : passStep s = .next t) : MachineInv t := by
  obtain ⟨a, r, -, -, rfl⟩ | ⟨a1, r1, a2, r2, b, q, -, -, -, hstep⟩ := passStep_cases h
  · exact hs.congr rfl rfl rfl rfl rfl
  · have hfetched : MachineInv (fetched b (q ++ a2) r2 s) := hs.congr rfl rfl rfl rfl rfl
    exact rxStep_keeps_machineInv hfetched hstep

/-- The environment's moves between passes write none of what the invariant reads. -/
theorem applyIdleMove_keeps_machineInv (m : EnvMove) {s : State} (hs : MachineInv s) :
    MachineInv (applyIdleMove m s) := by
  cases m <;> exact hs.congr rfl rfl rfl rfl rfl

theorem idleStep_keeps_machineInv {s t : State} (hs : MachineInv s) (h : idleStep s = .next t) : MachineInv t := by
  obtain ⟨-, rfl⟩ | ⟨m, rest, -, rfl⟩ := idleStep_cases h
  · exact hs
  · exact applyIdleMove_keeps_machineInv m (hs.congr rfl rfl rfl rfl rfl)

/-- Settles O14: a step is an iteration of the running pass or a move of the environment, and both keep the invariant. -/
theorem stepKeepsMachineInvariant : Obligations.StepKeepsMachineInvariant := by
  intro s t hs h
  cases hrun : s.passRunning with
  | true => exact passStep_keeps_machineInv hs (step_running hrun ▸ h)
  | false => exact idleStep_keeps_machineInv hs (step_idle hrun ▸ h)

/-! ### Recovery within sixteen bytes (O27)

Every receiver step from any state either leaves the receiver resynchronised, where its invariant holds, or advances the
4-bit cursor by one without wrapping; sixteen advances in a row do not fit the cursor. -/

theorem rxStep_resyncs_or_advances {b : Byte} {s t : State} (h : rxStep b s = .next t) :
    (t.rxState = .awaitingHeader ∧ t.cursor = 0) ∨ t.cursor.toNat = s.cursor.toNat + 1 := by
  obtain ⟨r', hc, rfl, -⟩ | ⟨e, a, r, -, rfl, -⟩ | ⟨u, -, -, -, rfl⟩ := rxStep_cases h
  · exact .inr (storedCursor_toNat hc)
  · exact .inl ⟨rfl, rfl⟩
  · exact .inl ⟨rfl, rfl⟩

/-- The bytes of a feed bring the receiver to its invariant on the way, or each of them advances the cursor. -/
theorem feed_meets_rxInv_or_advances {bs : List Byte} {s u : State} (h : feed bs s = .next u) :
    (∃ k t, k ≤ bs.length ∧ feed (bs.take k) s = .next t ∧ RxInv t) ∨
      u.cursor.toNat = s.cursor.toNat + bs.length := by
  induction bs generalizing s with
  | nil =>
    obtain rfl : s = u := by simpa [feed] using h
    exact .inr rfl
  | cons b bs ih =>
    obtain ⟨v, hstep, hrest⟩ := andThen_eq_next.1 h
    have hfeed (k : Nat) : feed ((b :: bs).take (k + 1)) s = feed (bs.take k) v := by
      simp [feed, hstep]
    rcases rxStep_resyncs_or_advances hstep with hresync | hadvance
    · exact .inl ⟨1, v, by simp, hfeed 0, .inl hresync⟩
    · rcases ih hrest with ⟨k, t, hk, hfed, hinv⟩ | hcursor
      · exact .inl ⟨k + 1, t, by simpa using hk, by rw [hfeed, hfed], hinv⟩
      · right
        rw [hcursor, hadvance, List.length_cons]
        omega

/-- Settles O27: sixteen bytes that all advance the cursor would take it past 15. -/
theorem recoversWithinSixteenBytes : Obligations.RecoversWithinSixteenBytes := by
  intro s u bs hlen h
  rcases feed_meets_rxInv_or_advances h with ⟨k, t, hk, hfed, hinv⟩ | hcursor
  · exact ⟨k, t, hlen ▸ hk, hfed, hinv⟩
  · have hlt := u.cursor.isLt
    omega

/-! ### Stale buffer contents are unobservable (O17)

Two runs of the block from states that differ in stale bytes alone go on side by side: every operation takes related states
to related outcomes.  The two places that read a buffer read bytes that agree: a transmission sends what its arm has just
prepared, and a completed frame has all its sixteen bytes below or at the cursor. -/

/-- Two outcomes agree: the same stop, or next states that differ in stale bytes alone. -/
inductive SameOutcome : Result → Result → Prop where
  | next {s t : State} (h : SameButStaleBytes s t) : SameOutcome (.next s) (.next t)
  | fault (f : Fault) : SameOutcome (.fault f) (.fault f)
  | refused (r : Refusal) : SameOutcome (.refused r) (.refused r)

section

variable {s t : State}

theorem SameButStaleBytes.rxState_eq (h : SameButStaleBytes s t) : t.rxState = s.rxState := (congrArg State.rxState h.1 :)

theorem SameButStaleBytes.cursor_eq (h : SameButStaleBytes s t) : t.cursor = s.cursor := (congrArg State.cursor h.1 :)

theorem SameButStaleBytes.passRunning_eq (h : SameButStaleBytes s t) : t.passRunning = s.passRunning :=
  (congrArg State.passRunning h.1 :)

theorem SameButStaleBytes.cfgChannel_eq (h : SameButStaleBytes s t) : t.cfgChannel = s.cfgChannel :=
  (congrArg State.cfgChannel h.1 :)

theorem SameButStaleBytes.cfgPower_eq (h : SameButStaleBytes s t) : t.cfgPower = s.cfgPower := (congrArg State.cfgPower h.1 :)

theorem SameButStaleBytes.params_eq (h : SameButStaleBytes s t) : t.params = s.params := (congrArg State.params h.1 :)

theorem SameButStaleBytes.rxFifo_eq (h : SameButStaleBytes s t) : t.rxFifo = s.rxFifo := (congrArg State.rxFifo h.1 :)

theorem SameButStaleBytes.trace_eq (h : SameButStaleBytes s t) : t.trace = s.trace := (congrArg State.trace h.1 :)

theorem SameButStaleBytes.script_eq (h : SameButStaleBytes s t) : t.script = s.script := (congrArg State.script h.1 :)

/-- An update keeps the relation when it neither reads a buffer nor moves the receiver; it may prepare the transmit
buffer. -/
theorem SameButStaleBytes.update (h : SameButStaleBytes s t) {g : State → State}
    (hg : ∀ (u : State) (rx tx : Buffer), ∃ tx',
      g { u with rxbuf := rx, txbuf := tx } = { g u with rxbuf := rx, txbuf := tx' })
    (hrxbuf : (g s).rxbuf = s.rxbuf) (hcursor : (g s).cursor = s.cursor) : SameButStaleBytes (g s) (g t) := by
  obtain ⟨ht, hbytes⟩ := h
  obtain ⟨tx', hgt⟩ := hg s t.rxbuf t.txbuf
  rw [← ht] at hgt
  rw [hgt]
  refine ⟨rfl, fun k hk hlt => ?_⟩
  rw [hcursor] at hlt
  simpa only [hrxbuf] using hbytes k hk hlt

theorem SameButStaleBytes.after_emit (h : SameButStaleBytes s t) (e : Event) : SameButStaleBytes (emit e s) (emit e t) :=
  h.update (fun _ _ tx => ⟨tx, rfl⟩) rfl rfl

theorem SameButStaleBytes.after_resync (h : SameButStaleBytes s t) : SameButStaleBytes (resync s) (resync t) :=
  ⟨congrArg resync h.1, fun _ _ hk => absurd hk (Nat.not_lt_zero _)⟩

/-- An appended byte makes the buffers agree at the cursor too. -/
theorem SameButStaleBytes.appendByte_agrees (h : SameButStaleBytes s t) (b : Byte) (k : Nat) (hk : k < 16)
    (hle : k ≤ s.cursor.toNat) : (appendByte b t).rxbuf[k] = (appendByte b s).rxbuf[k] := by
  simp only [appendByte_rxbuf, putAt_get, h.cursor_eq]
  split
  · rfl
  · exact h.2 k hk (by omega)

theorem SameButStaleBytes.after_appendByte (h : SameButStaleBytes s t) (b : Byte) :
    SameButStaleBytes (appendByte b s) (appendByte b t) :=
  ⟨congrArg (fun u : State => { u with rxbuf := (appendByte b t).rxbuf }) h.1,
    fun k hk hlt => h.appendByte_agrees b k hk (Nat.le_of_lt hlt)⟩

/-- An advance of the cursor takes in the byte just appended. -/
theorem SameButStaleBytes.after_advance (h : SameButStaleBytes s t) (r : RxState) (b : Byte) (hc : s.cursor ≠ 15) :
    SameButStaleBytes (goTo r (nextCursor s.cursor) (appendByte b s))
      (goTo r (nextCursor s.cursor) (appendByte b t)) := by
  refine ⟨congrArg (goTo r (nextCursor s.cursor)) (h.after_appendByte b).1,
    fun k hk hlt => h.appendByte_agrees b k hk ?_⟩
  rw [goTo_cursor, storedCursor_toNat hc] at hlt
  omega

/-- A completed frame is the same in both states. -/
theorem SameButStaleBytes.appendByte_rxbuf_eq (h : SameButStaleBytes s t) (b : Byte) (hc : s.cursor = 15) :
    (appendByte b t).rxbuf = (appendByte b s).rxbuf :=
  buffer_ext fun k hk => h.appendByte_agrees b k hk (by rw [hc]; exact Nat.le_of_lt_succ hk)

/-- Related outcomes go on to related outcomes, or stop alike. -/
theorem SameOutcome.bind {r q : Result} {k l : State → Result} (h : SameOutcome r q)
    (hk : ∀ u v, SameButStaleBytes u v → SameOutcome (k u) (l v)) : SameOutcome (andThen r k) (andThen q l) := by
  cases h with
  | next h => exact hk _ _ h
  | fault f => exact .fault f
  | refused r => exact .refused r

/-- The environment's turn reads the script alone. -/
theorem sameOutcome_envTurn (h : SameButStaleBytes s t) : SameOutcome (envTurn s) (envTurn t) := by
  simp only [envTurn, h.script_eq]
  split
  · exact .next (h.update (fun _ _ tx => ⟨tx, rfl⟩) rfl rfl)
  · exact .fault _

theorem sameOutcome_avail {k l : Bool → State → Result} (h : SameButStaleBytes s t)
    (hk : ∀ ready u v, SameButStaleBytes u v → SameOutcome (k ready u) (l ready v)) :
    SameOutcome (avail s k) (avail t l) :=
  (sameOutcome_envTurn h).bind fun u v huv => by
    rw [huv.rxFifo_eq]
    exact hk _ _ _ (huv.after_emit _)

theorem sameOutcome_readByte {k l : Byte → State → Result} (h : SameButStaleBytes s t)
    (hk : ∀ b u v, SameButStaleBytes u v → SameOutcome (k b u) (l b v)) :
    SameOutcome (readByte s k) (readByte t l) :=
  (sameOutcome_envTurn h).bind fun u v huv => by
    rw [huv.rxFifo_eq]
    cases u.rxFifo with
    | nil => exact .fault _
    | cons b rest =>
      have hpop : SameButStaleBytes (setFifo rest u) (setFifo rest v) := huv.update (fun _ _ tx => ⟨tx, rfl⟩) rfl rfl
      exact hk _ _ _ (hpop.after_emit _)

/-- A primitive of the block is a turn of the environment and one event. -/
theorem sameOutcome_turn_emit (h : SameButStaleBytes s t) (e : Event) :
    SameOutcome (andThen (envTurn s) fun u => .next (emit e u))
      (andThen (envTurn t) fun v => .next (emit e v)) :=
  (sameOutcome_envTurn h).bind fun _ _ huv => .next (huv.after_emit e)

theorem sameOutcome_diag (h : SameButStaleBytes s t) (e : DiagEvent) (x : Byte) : SameOutcome (diag e x s) (diag e x t) :=
  sameOutcome_turn_emit h _

theorem sameOutcome_delay (h : SameButStaleBytes s t) : SameOutcome (delay s) (delay t) :=
  (sameOutcome_envTurn h).bind fun u v huv => by
    rw [huv.params_eq]
    exact .next (huv.after_emit _)

theorem sameOutcome_writeBytes (bs : List Byte) (h : SameButStaleBytes s t) :
    SameOutcome (writeBytes bs s) (writeBytes bs t) := by
  induction bs generalizing s t with
  | nil => exact .next h
  | cons b bs ih => exact (sameOutcome_turn_emit h _).bind fun _ _ huv => ih huv

theorem sameOutcome_drainRead (h : SameButStaleBytes s t) : SameOutcome (drainRead s) (drainRead t) :=
  sameOutcome_avail h fun ready u v huv => by
    cases ready with
    | true => exact sameOutcome_readByte huv fun _ _ _ hread => .next hread
    | false => exact .next huv

/-- The one read of the transmit buffer: it holds what the arm prepared. -/
theorem sameOutcome_transmit (h : SameButStaleBytes s t) (htx : t.txbuf = s.txbuf) :
    SameOutcome (transmit s) (transmit t) := by
  have hstart : SameButStaleBytes (setBusy true (finalize s)) (setBusy true (finalize t)) :=
    h.update (g := fun u => setBusy true (finalize u)) (fun _ _ _ => ⟨_, rfl⟩) rfl rfl
  simp only [transmit, setBusy_txbuf, finalize_txbuf, htx]
  refine (sameOutcome_writeBytes _ hstart).bind fun u v huv =>
    (sameOutcome_delay huv).bind fun u v huv => sameOutcome_drainRead ?_
  exact huv.update (fun _ _ tx => ⟨tx, rfl⟩) rfl rfl

theorem sameOutcome_reply (h : SameButStaleBytes s t) (code : Byte) (body : Buffer) :
    SameOutcome (reply code body s) (reply code body t) := by
  have hloaded : SameButStaleBytes (loadTx body s) (loadTx body t) := h.update (fun _ _ _ => ⟨body, rfl⟩) rfl rfl
  exact (sameOutcome_transmit hloaded rfl).bind fun _ _ huv => sameOutcome_diag huv _ _

theorem sameOutcome_execSetFreq (h : SameButStaleBytes s t) (freq : Half) (rest : PayloadRest) :
    SameOutcome (execSetFreq freq rest s) (execSetFreq freq rest t) := by
  simp only [execSetFreq, h.params_eq]
  split
  · rename_i i _
    have hwritten : SameButStaleBytes (writeCfgChannel i s) (writeCfgChannel i t) :=
      h.update (fun _ _ tx => ⟨tx, rfl⟩) rfl rfl
    exact (sameOutcome_turn_emit hwritten _).bind fun _ _ huv => sameOutcome_diag huv _ _
  · exact sameOutcome_diag h _ _

/-- What an arm does depends on no buffer: the instruction holds all that it reads of the frame. -/
theorem sameOutcome_exec (h : SameButStaleBytes s t) (i : Instr) : SameOutcome (exec i s) (exec i t) := by
  cases i with
  | range payload => exact sameOutcome_reply h _ _
  | status payload =>
    simp only [exec, execStatus, h.params_eq, h.cfgChannel_eq, h.cfgPower_eq]
    exact sameOutcome_reply h _ _
  | setFreq freq rest => exact sameOutcome_execSetFreq h freq rest
  | setPower payload =>
    simp only [exec, execSetPower, h.params_eq]
    exact sameOutcome_reply h _ _
  | other code payload => exact sameOutcome_diag h _ _

theorem sameOutcome_completeFrame (h : SameButStaleBytes s t) (hrx : t.rxbuf = s.rxbuf) :
    SameOutcome (completeFrame s) (completeFrame t) := by
  simp only [completeFrame, hrx]
  split
  · exact sameOutcome_exec h _
  · exact sameOutcome_diag h _ _

theorem sameOutcome_onLast (h : SameButStaleBytes s t) (hrx : t.rxbuf = s.rxbuf) : SameOutcome (onLast s) (onLast t) :=
  (sameOutcome_completeFrame h hrx).bind fun _ _ huv => .next huv.after_resync

theorem sameOutcome_rxStep (h : SameButStaleBytes s t) (b : Byte) : SameOutcome (rxStep b s) (rxStep b t) := by
  have happ := h.after_appendByte b
  have hresync (e : DiagEvent) : SameOutcome (diag e b (resync (appendByte b s)))
      (diag e b (resync (appendByte b t))) := sameOutcome_diag happ.after_resync e b
  cases hstate : s.rxState with
  | awaitingHeader =>
    rw [rxStep_awaitingHeader b hstate, rxStep_awaitingHeader b (h.rxState_eq.trans hstate), h.cursor_eq]
    split_ifs with hheader hfull
    · exact hresync _
    · exact hresync _
    · exact .next (h.after_advance _ b hfull)
  | awaitingCode =>
    rw [rxStep_awaitingCode b hstate, rxStep_awaitingCode b (h.rxState_eq.trans hstate), h.cursor_eq, h.params_eq]
    split_ifs with hcode hfull
    · exact hresync _
    · exact hresync _
    · exact .next (h.after_advance _ b hfull)
  | accumulatingData =>
    rw [rxStep_accumulatingData b hstate, rxStep_accumulatingData b (h.rxState_eq.trans hstate), h.cursor_eq]
    split_ifs with hfull
    · exact sameOutcome_onLast happ (h.appendByte_rxbuf_eq b hfull)
    · rw [onData, onData, happ.rxState_eq]
      exact .next (h.after_advance _ b hfull)
  | illegal =>
    rw [rxStep_illegal b hstate, rxStep_illegal b (h.rxState_eq.trans hstate)]
    exact hresync _

theorem sameOutcome_passStep (h : SameButStaleBytes s t) : SameOutcome (passStep s) (passStep t) :=
  sameOutcome_avail h fun ready u v huv => by
    cases ready with
    | true => exact sameOutcome_readByte huv fun b _ _ hread => sameOutcome_rxStep hread b
    | false => exact .next (huv.update (fun _ _ tx => ⟨tx, rfl⟩) rfl rfl)

theorem sameOutcome_idleStep (h : SameButStaleBytes s t) : SameOutcome (idleStep s) (idleStep t) := by
  simp only [idleStep, h.script_eq]
  split
  · exact .next h
  · rename_i m rest _
    refine .next (h.update (g := fun u => applyIdleMove m { u with script := rest }) (fun _ _ tx => ⟨tx, ?_⟩) ?_ ?_) <;>
      cases m <;> rfl

theorem sameOutcome_step (h : SameButStaleBytes s t) : SameOutcome (step s) (step t) := by
  cases hrun : s.passRunning with
  | true =>
    rw [step_running hrun, step_running (h.passRunning_eq.trans hrun)]
    exact sameOutcome_passStep h
  | false =>
    rw [step_idle hrun, step_idle (h.passRunning_eq.trans hrun)]
    exact sameOutcome_idleStep h

end

/-- Settles O17: the two steps have the same outcome but for stale bytes, and the trace is none of these. -/
theorem bufferContentsUnobservable : Obligations.BufferContentsUnobservable := by
  intro s t h
  have hstep := sameOutcome_step h
  constructor
  · intro s' hs
    rw [hs] at hstep
    generalize step t = q at hstep ⊢
    cases hstep with
    | next h' => exact ⟨_, rfl, h', h'.trace_eq⟩
  · intro f hs
    rw [hs] at hstep
    generalize step t = q at hstep ⊢
    cases hstep with
    | fault => rfl

end Sys2Proof.Machine

namespace Sys2Proof.Machine

/-! ### 16-bit fields (O10) -/

/-- Each even offset of the payload that leaves room for the high byte is a field's (30_encoding.md R61). -/
theorem exists_halfOffset_of_aligned {n : Nat} (heven : n % 2 = 0) (hlo : 2 ≤ n) (hhi : n ≤ 12) :
    ∃ off, (halfOffset off).val = n := by
  obtain rfl | rfl | rfl | rfl | rfl | rfl : n = 2 ∨ n = 4 ∨ n = 6 ∨ n = 8 ∨ n = 10 ∨ n = 12 := by omega
  · exact ⟨.at2, rfl⟩
  · exact ⟨.at4, rfl⟩
  · exact ⟨.at6, rfl⟩
  · exact ⟨.at8, rfl⟩
  · exact ⟨.at10, rfl⟩
  · exact ⟨.at12, rfl⟩

theorem exists_halfOffset_iff (n : Nat) : (∃ off, (halfOffset off).val = n) ↔ n % 2 = 0 ∧ 2 ≤ n ∧ n ≤ 12 := by
  constructor
  · rintro ⟨off, rfl⟩
    exact halfOffset_aligned off
  · rintro ⟨heven, hlo, hhi⟩
    exact exists_halfOffset_of_aligned heven hlo hhi

theorem loByte_eq_ofNat (v : Half) : loByte v = BitVec.ofNat 8 v.toNat :=
  BitVec.eq_of_toNat_eq (by rw [loByte_toNat, BitVec.toNat_ofNat])

theorem hiByte_eq_ofNat (v : Half) : hiByte v = BitVec.ofNat 8 (v.toNat / 256) := by
  apply BitVec.eq_of_toNat_eq
  have hv := v.isLt
  rw [hiByte_toNat, BitVec.toNat_ofNat]
  omega

theorem memRead2_toNat (buf : Buffer) (off : HalfOffset) :
    (memRead2 buf off).toNat = buf[(halfOffset off).val].toNat + 256 * buf[(halfOffset off).val + 1].toNat := by
  rw [memRead2_eq, le16_toNat]

theorem memWrite2_get_lo (buf : Buffer) (off : HalfOffset) (v : Half) :
    (memWrite2 buf off v)[(halfOffset off).val] = loByte v := by
  rw [memWrite2_get, if_neg (Nat.succ_ne_self _), if_pos rfl]

theorem memWrite2_get_hi (buf : Buffer) (off : HalfOffset) (v : Half) :
    (memWrite2 buf off v)[(halfOffset off).val + 1] = hiByte v := by
  rw [memWrite2_get, if_pos rfl]

theorem memWrite2_get_other (buf : Buffer) (off : HalfOffset) (v : Half) {k : Nat} (hk : k < 16)
    (hlo : k ≠ (halfOffset off).val) (hhi : k ≠ (halfOffset off).val + 1) : (memWrite2 buf off v)[k] = buf[k] := by
  rw [memWrite2_get, if_neg hhi.symm, if_neg hlo.symm]

/-- Settles O10: the field offsets are the six listed ones, and a field is its two bytes. -/
theorem halfFieldsAreLittleEndian : Obligations.HalfFieldsAreLittleEndian := by
  refine ⟨exists_halfOffset_iff, fun buf off v => ⟨memRead2_toNat buf off, memRead2_memWrite2 buf off v, ?_, ?_, ?_⟩⟩
  · rw [memWrite2_get_lo, loByte_eq_ofNat]
  · rw [memWrite2_get_hi, hiByte_eq_ofNat]
  · intro k hk hlo hhi
    exact memWrite2_get_other buf off v hk hlo hhi

/-! ### Each received byte is popped once, in arrival order (O18)

The receive FIFO is accounted for between two states when what waited and then arrived is what was popped and then waits.
Accounts compose, and each operation of the block keeps one: a turn of the environment appends what its moves deliver, a pop
moves the oldest byte to the trace, and no other event touches the FIFO. -/

/-- From `s` to `t` the environment spent moves and the trace grew, and every byte of the FIFO is accounted for in order. -/
def FifoAccounted (s t : State) : Prop :=
  ∃ (spent : List EnvMove) (es : List Event), s.script = spent ++ t.script ∧ t.trace = s.trace ++ es ∧
    s.rxFifo ++ arrivalsOf spent = poppedBytes es ++ t.rxFifo

theorem FifoAccounted.refl (s : State) : FifoAccounted s s :=
  ⟨[], [], rfl, (List.append_nil _).symm, List.append_nil _⟩

theorem FifoAccounted.trans {s t u : State} (hst : FifoAccounted s t) (htu : FifoAccounted t u) : FifoAccounted s u := by
  obtain ⟨spent₁, es₁, hscript₁, htrace₁, hfifo₁⟩ := hst
  obtain ⟨spent₂, es₂, hscript₂, htrace₂, hfifo₂⟩ := htu
  refine ⟨spent₁ ++ spent₂, es₁ ++ es₂, by simp [hscript₁, hscript₂], by simp [htrace₁, htrace₂], ?_⟩
  calc s.rxFifo ++ arrivalsOf (spent₁ ++ spent₂)
      = (s.rxFifo ++ arrivalsOf spent₁) ++ arrivalsOf spent₂ := by simp
    _ = poppedBytes es₁ ++ (t.rxFifo ++ arrivalsOf spent₂) := by rw [hfifo₁, List.append_assoc]
    _ = poppedBytes (es₁ ++ es₂) ++ u.rxFifo := by simp [hfifo₂]

/-- An event that pops nothing. -/
theorem FifoAccounted.after_emit {s t : State} {e : Event} (h : FifoAccounted s t) (he : poppedBytes [e] = []) :
    FifoAccounted s (emit e t) :=
  h.trans ⟨[], [e], rfl, rfl, by simp [he, arrivalsOf]⟩

/-- A turn of the environment (60_exceptions.md R147). -/
theorem FifoAccounted.after_turn {s t : State} {a : List Byte} {r : List EnvMove} (h : FifoAccounted s t)
    (hturn : takeTurn t.script = .ok (a, r)) : FifoAccounted s (arrived a r t) := by
  obtain ⟨spent, hscript, rfl⟩ := takeTurn_arrivals hturn
  exact h.trans ⟨spent, [], hscript, (List.append_nil _).symm, rfl⟩

/-- A pop of the oldest byte (20_memory.md R46). -/
theorem FifoAccounted.after_pop {s t : State} {b : Byte} {q : List Byte} (h : FifoAccounted s t)
    (hq : t.rxFifo = b :: q) : FifoAccounted s (emit (.readByte b) (setFifo q t)) :=
  h.trans ⟨[], [.readByte b], rfl, rfl, by simp [hq, arrivalsOf]⟩

theorem sendEnv_accounts {s : State} {x : Option Byte} {fifo : List Byte} {rest : List EnvMove}
    (h : SendEnv s x fifo rest) :
    ∃ spent, s.script = spent ++ rest ∧ s.rxFifo ++ arrivalsOf spent = x.toList ++ fifo := by
  obtain ⟨a, r, hsend, ⟨hempty, rfl, rfl, rfl⟩ | ⟨b, q, a', hq, rfl, hdrain, rfl⟩⟩ := h
  · obtain ⟨spent, hscript, rfl⟩ := takeTurns_arrivals hsend
    exact ⟨spent, hscript, hempty⟩
  · obtain ⟨spent₁, hscript₁, rfl⟩ := takeTurns_arrivals hsend
    obtain ⟨spent₂, hscript₂, rfl⟩ := takeTurns_arrivals hdrain
    refine ⟨spent₁ ++ spent₂, by simp [hscript₁, hscript₂], ?_⟩
    rw [arrivalsOf_append, ← List.append_assoc, hq]
    rfl

theorem replyEnv_accounts {s : State} {x : Option Byte} {fifo : List Byte} {rest : List EnvMove}
    (h : ReplyEnv s x fifo rest) :
    ∃ spent, s.script = spent ++ rest ∧ s.rxFifo ++ arrivalsOf spent = x.toList ++ fifo := by
  obtain ⟨q, r, a, hsend, hturn, rfl⟩ := h
  obtain ⟨spent₁, hscript₁, hfifo⟩ := sendEnv_accounts hsend
  obtain ⟨spent₂, hscript₂, rfl⟩ := takeTurns_arrivals hturn
  refine ⟨spent₁ ++ spent₂, by simp [hscript₁, hscript₂], ?_⟩
  rw [arrivalsOf_append, ← List.append_assoc, hfifo, List.append_assoc]

/-- A reply arm pops the drained byte and no other (43_reply_transmit.md R136). -/
theorem replied_accounted {s : State} {code : Byte} {f : Buffer} {x : Option Byte} {fifo : List Byte}
    {rest : List EnvMove} (h : ReplyEnv s x fifo rest) : FifoAccounted s (replied code f x fifo rest s) := by
  obtain ⟨spent, hscript, hfifo⟩ := replyEnv_accounts h
  refine ⟨spent, sendEvents s.params.drainDelay f ++ drainEvents x ++ [.diag .cmdProcessed code], hscript, ?_, ?_⟩
  · simp [replied]
  · simpa [replied] using hfifo

theorem exec_accounted {i : Instr} {s t : State} (h : exec i s = .next t) : FifoAccounted s t := by
  obtain ⟨c, body, x, fifo, rest, -, henv, rfl⟩ | ⟨freq, other, j, a1, r1, a2, r2, -, -, hturn1, hturn2, rfl⟩ |
    ⟨e, x, a, r, hturn, rfl, -⟩ := exec_cases h
  · exact replied_accounted henv
  · have hwritten : FifoAccounted s (writeCfgChannel j s) := (FifoAccounted.refl s).after_emit rfl
    have happlied := (hwritten.after_turn hturn1).after_emit (e := .applyChannel j) rfl
    exact (happlied.after_turn hturn2).after_emit rfl
  · exact ((FifoAccounted.refl s).after_turn hturn).after_emit rfl

theorem completeFrame_accounted {s t : State} (h : completeFrame s = .next t) : FifoAccounted s t := by
  obtain ⟨i, -, hexec⟩ | ⟨e, a, r, -, hturn, rfl⟩ := completeFrame_cases h
  · exact exec_accounted hexec
  · exact ((FifoAccounted.refl s).after_turn hturn).after_emit rfl

/-- The append, the moves of the receiver and its resynchronisation leave the FIFO, the script and the trace. -/
theorem rxStep_accounted {b : Byte} {s t : State} (h : rxStep b s = .next t) : FifoAccounted s t := by
  obtain ⟨r', -, rfl, -⟩ | ⟨e, a, r, hturn, rfl, -⟩ | ⟨u, -, -, hcomplete, rfl⟩ := rxStep_cases h
  · exact .refl s
  · have hresync : FifoAccounted s (resync (appendByte b s)) := .refl s
    exact (hresync.after_turn hturn).after_emit rfl
  · exact completeFrame_accounted (s := appendByte b s) (t := u) hcomplete

/-- A pass iteration pops the byte that its `Avail` saw at the FIFO's head. -/
theorem fetched_accounted {s : State} {a1 a2 q : List Byte} {r1 r2 : List EnvMove} {b : Byte}
    (hturn1 : takeTurn s.script = .ok (a1, r1)) (hq : s.rxFifo ++ a1 = b :: q) (hturn2 : takeTurn r1 = .ok (a2, r2)) :
    FifoAccounted s (fetched b (q ++ a2) r2 s) := by
  have hseen := ((FifoAccounted.refl s).after_turn hturn1).after_emit (e := .avail true) rfl
  have hpopped := (hseen.after_turn hturn2).after_pop (b := b) (q := q ++ a2) (by simp [hq])
  simpa [FifoAccounted, fetched] using hpopped

theorem passStep_accounted {s t : State} (h : passStep s = .next t) : FifoAccounted s t := by
  obtain ⟨a, r, hturn, -, rfl⟩ | ⟨a1, r1, a2, r2, b, q, hturn1, hq, hturn2, hstep⟩ := passStep_cases h
  · exact ((FifoAccounted.refl s).after_turn hturn).after_emit (e := .avail false) rfl
  · exact (fetched_accounted hturn1 hq hturn2).trans (rxStep_accounted hstep)

/-- A move of the environment between passes delivers its byte or leaves the FIFO. -/
theorem applyIdleMove_rxFifo (m : EnvMove) (s : State) : (applyIdleMove m s).rxFifo = s.rxFifo ++ arrivalsOf [m] := by
  cases m with
  | arrive b => rfl
  | passReq => exact (List.append_nil _).symm
  | cfgChannel v => exact (List.append_nil _).symm
  | cfgPower v => exact (List.append_nil _).symm
  | yield => exact (List.append_nil _).symm

@[simp] theorem applyIdleMove_script (m : EnvMove) (s : State) : (applyIdleMove m s).script = s.script := by
  cases m <;> rfl

theorem idleStep_accounted {s t : State} (h : idleStep s = .next t) : FifoAccounted s t := by
  obtain ⟨-, rfl⟩ | ⟨m, rest, hscript, rfl⟩ := idleStep_cases h
  · exact .refl t
  · exact ⟨[m], [], by simp [hscript], by simp, by simp [applyIdleMove_rxFifo]⟩

/-- Settles O18: an iteration of the running pass accounts for the FIFO, and so does a move of the environment. -/
theorem bytesConsumedOnceInOrder : Obligations.BytesConsumedOnceInOrder := by
  intro s t h
  cases hrun : s.passRunning with
  | true => exact passStep_accounted (step_running hrun ▸ h)
  | false => exact idleStep_accounted (step_idle hrun ▸ h)

end Sys2Proof.Machine

namespace Sys2Proof.Machine

/-! ### Encoding and decoding (O1, O2, O5)

A valid frame that starts with the header is determined by its command byte and its payload, and an instruction's frame
holds the instruction's operands there.  So the two directions come down to what the decoder reads from `frame code payload`,
one row of the opcode table at a time. -/

/-- IS_VALID in terms of its two bytes (41_checksum.md R101). -/
theorem isValid_iff (f : Buffer) : isValid f = true ↔ f[14] = checksum f ∧ f[15] = trailerByte := by
  simp [isValid]

/-- FINALIZE of the first fourteen bytes of a valid frame makes that frame. -/
theorem finalizeBuffer_eq_of_valid {f g : Buffer} (hf : isValid f = true)
    (hg : ∀ (k : Nat) (hk : k < 14), g[k] = f[k]) : finalizeBuffer g = f := by
  obtain ⟨hsum, htrailer⟩ := (isValid_iff f).1 hf
  have hchecksum : checksum g = checksum f := checksum_congr fun k _ _ hlast => hg k (by omega)
  apply buffer_ext
  intro k hk
  rw [finalizeBuffer_get]
  split_ifs with h15 h14
  · subst h15; exact htrailer.symm
  · subst h14; exact hchecksum.trans hsum.symm
  · exact hg k (by omega)

theorem frameBody_get_payload (code : Byte) (p : Payload) (k : Nat) (h : k < 12) :
    (frameBody code p)[k + 2] = p[k] := by
  interval_cases k <;> rfl

/-- A valid frame that starts with the header is the frame of its command byte and payload (30_encoding.md R61). -/
theorem frame_eq_of_valid {f : Buffer} (hheader : f[0] = headerByte) (hf : isValid f = true) :
    frame f[1] (payloadOf f) = f := by
  refine finalizeBuffer_eq_of_valid hf fun k hk => ?_
  match k with
  | 0 => exact hheader.symm
  | 1 => rfl
  | k + 2 =>
    rw [frameBody_get_payload _ _ k (by omega), payloadOf_get]

/-! What the decoder makes of a frame, by its command byte (30_encoding.md R63, R72). -/

theorem selectOpcode_eq_codes (code : Byte) : selectOpcode code =
    if code = codeRange then .range else if code = codeStatus then .status else if code = codeSetFreq then .setFreq
    else if code = codeSetPower then .setPower else .other :=
  selectOpcode_eq code

theorem instrOf_range {f : Buffer} (h : f[1] = codeRange) : instrOf f = .range (payloadOf f) := by
  simp [instrOf, selectOpcode_eq, h, codeRange]

theorem instrOf_status {f : Buffer} (h : f[1] = codeStatus) : instrOf f = .status (payloadOf f) := by
  simp [instrOf, selectOpcode_eq, h, codeStatus]

theorem instrOf_setFreq {f : Buffer} (h : f[1] = codeSetFreq) :
    instrOf f = .setFreq (memRead2 f .at2) (payloadRestOf f) := by
  simp [instrOf, selectOpcode_eq, h, codeSetFreq]

theorem instrOf_setPower {f : Buffer} (h : f[1] = codeSetPower) : instrOf f = .setPower (payloadOf f) := by
  simp [instrOf, selectOpcode_eq, h, codeSetPower]

theorem other_wf_iff (code : Byte) (p : Payload) : (Instr.other code p).wf = true ↔
    code ≠ codeRange ∧ code ≠ codeStatus ∧ code ≠ codeSetFreq ∧ code ≠ codeSetPower := by
  simp [Instr.wf, commandCodes]

theorem instrOf_other {f : Buffer} (h : (Instr.other f[1] (payloadOf f)).wf = true) :
    instrOf f = .other f[1] (payloadOf f) := by
  obtain ⟨hrange, hstatus, hsetFreq, hsetPower⟩ := (other_wf_iff _ _).1 h
  have hselect : selectOpcode f[1] = .other := by
    rw [selectOpcode_eq_codes, if_neg hrange, if_neg hstatus, if_neg hsetFreq, if_neg hsetPower]
  simp [instrOf, hselect]

/-- The command byte of a frame stands in one row of the opcode table. -/
theorem instrOf_cases (f : Buffer) :
    (f[1] = codeRange ∧ instrOf f = .range (payloadOf f)) ∨
    (f[1] = codeStatus ∧ instrOf f = .status (payloadOf f)) ∨
    (f[1] = codeSetFreq ∧ instrOf f = .setFreq (memRead2 f .at2) (payloadRestOf f)) ∨
    (f[1] = codeSetPower ∧ instrOf f = .setPower (payloadOf f)) ∨
    ((Instr.other f[1] (payloadOf f)).wf = true ∧ instrOf f = .other f[1] (payloadOf f)) := by
  by_cases hrange : f[1] = codeRange
  · exact .inl ⟨hrange, instrOf_range hrange⟩
  by_cases hstatus : f[1] = codeStatus
  · exact .inr (.inl ⟨hstatus, instrOf_status hstatus⟩)
  by_cases hsetFreq : f[1] = codeSetFreq
  · exact .inr (.inr (.inl ⟨hsetFreq, instrOf_setFreq hsetFreq⟩))
  by_cases hsetPower : f[1] = codeSetPower
  · exact .inr (.inr (.inr (.inl ⟨hsetPower, instrOf_setPower hsetPower⟩)))
  have hother := (other_wf_iff f[1] (payloadOf f)).2 ⟨hrange, hstatus, hsetFreq, hsetPower⟩
  exact .inr (.inr (.inr (.inr ⟨hother, instrOf_other hother⟩)))

/-! The SETFREQ operand is the payload's first two bytes, low byte first (30_encoding.md R65). -/

theorem memRead2_frame_setFreqPayload (code : Byte) (freq : Half) (rest : PayloadRest) :
    memRead2 (frame code (setFreqPayload freq rest)) .at2 = freq := by
  have hlo := frame_get_payload code (setFreqPayload freq rest) 0 (by decide)
  have hhi := frame_get_payload code (setFreqPayload freq rest) 1 (by decide)
  calc memRead2 (frame code (setFreqPayload freq rest)) .at2
      = le16 (frame code (setFreqPayload freq rest))[2] (frame code (setFreqPayload freq rest))[3] := memRead2_eq _ _
    _ = le16 (loByte freq) (hiByte freq) := congrArg₂ le16 hlo hhi
    _ = freq := le16_lo_hi freq

theorem setFreqPayload_get_rest (freq : Half) (rest : PayloadRest) (k : Nat) (h : k < 10) :
    (setFreqPayload freq rest)[k + 2] = rest[k] := by
  interval_cases k <;> rfl

theorem payloadRestOf_frame_setFreqPayload (code : Byte) (freq : Half) (rest : PayloadRest) :
    payloadRestOf (frame code (setFreqPayload freq rest)) = rest := by
  apply Vector.ext
  intro k hk
  rw [payloadRestOf_get, frame_get_payload code _ (k + 2) (by omega), setFreqPayload_get_rest]

/-- The SETFREQ operands of a frame are its whole payload. -/
theorem setFreqPayload_of_frame (f : Buffer) : setFreqPayload (memRead2 f .at2) (payloadRestOf f) = payloadOf f := by
  have hfreq : memRead2 f .at2 = le16 f[2] f[3] := memRead2_eq f .at2
  apply Vector.ext
  intro k hk
  match k with
  | 0 => rw [hfreq]; exact loByte_le16 _ _
  | 1 => rw [hfreq]; exact hiByte_le16 _ _
  | k + 2 => rw [setFreqPayload_get_rest _ _ k (by omega), payloadRestOf_get, payloadOf_get]

/-- Decoding inverts encoding: each row's command byte selects that row, and the payload holds the operands. -/
theorem instrOf_encode {i : Instr} (hi : i.wf = true) : instrOf (encode i) = i := by
  cases i with
  | range p => rw [encode, instrOf_range (frame_get_one _ _), payloadOf_frame]
  | status p => rw [encode, instrOf_status (frame_get_one _ _), payloadOf_frame]
  | setFreq freq rest =>
    rw [encode, instrOf_setFreq (frame_get_one _ _), memRead2_frame_setFreqPayload, payloadRestOf_frame_setFreqPayload]
  | setPower p => rw [encode, instrOf_setPower (frame_get_one _ _), payloadOf_frame]
  | other code p =>
    rw [encode, instrOf_other (by rwa [frame_get_one, payloadOf_frame]), frame_get_one, payloadOf_frame]

/-- Encoding inverts decoding: the frame of the decoded command byte and payload is the frame that was decoded. -/
theorem wf_and_encode_instrOf {f : Buffer} (hheader : f[0] = headerByte) (hf : isValid f = true) :
    (instrOf f).wf = true ∧ encode (instrOf f) = f := by
  have hframe := frame_eq_of_valid hheader hf
  obtain ⟨hcode, hinstr⟩ | ⟨hcode, hinstr⟩ | ⟨hcode, hinstr⟩ | ⟨hcode, hinstr⟩ | ⟨hwf, hinstr⟩ := instrOf_cases f <;>
    rw [hinstr]
  · exact ⟨rfl, by rw [encode, ← hcode, hframe]⟩
  · exact ⟨rfl, by rw [encode, ← hcode, hframe]⟩
  · exact ⟨rfl, by rw [encode, setFreqPayload_of_frame, ← hcode, hframe]⟩
  · exact ⟨rfl, by rw [encode, ← hcode, hframe]⟩
  · exact ⟨hwf, hframe⟩

/-- Every encoding is valid, since FINALIZE comes last. -/
theorem isValid_encode (i : Instr) : isValid (encode i) = true := by
  cases i <;> exact isValid_finalizeBuffer _

/-- A frame's bytes in wire order decode as the frame does. -/
theorem decode_toList (f : Buffer) : decode f.toList = decodeFrame f := by
  have hlength : f.toList.length = 16 := f.length_toList
  rw [decode, dif_pos hlength]
  rfl

/-- Settles O1: an encoding is valid, and the decoder reads the instruction's row and operands back from it. -/
theorem decodeInvertsEncode : Obligations.DecodeInvertsEncode := by
  intro i hi
  have hdecode : decodeFrame (encode i) = .ok i := by
    rw [decodeFrame_of_valid (isValid_encode i), instrOf_encode hi]
  exact ⟨hdecode, by rw [decode_toList, hdecode]⟩

/-- Settles O2: a frame that decodes is valid, and so is the frame of what the decoder reads from it. -/
theorem encodeReproducesDecodedFrame : Obligations.EncodeReproducesDecodedFrame := by
  intro f i hheader h
  obtain ⟨hf, rfl⟩ := decodeFrame_ok h
  exact wf_and_encode_instrOf hheader hf

/-- Settles O5: the decoder computes each frame written out. -/
theorem writtenOutFramesDecode : Obligations.WrittenOutFramesDecode :=
  ⟨rfl, rfl, rfl, rfl, rfl, rfl, rfl, rfl⟩

end Sys2Proof.Machine

namespace Sys2Proof.Machine

/-! ### The STATUS reply under the default layout (O40) -/

/-- The two bytes of a 16-bit value, from their numbers (20_memory.md R43). -/
theorem eq_loByte_of_toNat {b : Byte} {v : Half} (h : b.toNat = v.toNat % 256) : b = loByte v :=
  BitVec.eq_of_toNat_eq (h.trans (loByte_toNat v).symm)

theorem eq_hiByte_of_toNat {b : Byte} {v : Half} (h : b.toNat = v.toNat / 256) : b = hiByte v :=
  BitVec.eq_of_toNat_eq (h.trans (hiByte_toNat v).symm)

/-- The STATUS reply before FINALIZE under the default layout, written out (30_encoding.md R69). -/
theorem statusBody_defaultLayout (freq pwr : Half) : statusBody defaultLayout freq pwr =
    #v[headerByte, codeStatus, loByte freq, hiByte freq, loByte pwr, hiByte pwr, lockFlag, pitFlag,
      loByte pwr, hiByte pwr, fillByte, fillByte, fillByte, fillByte, fillByte, fillByte] := by
  apply buffer_ext
  intro k hk
  rw [statusBody_get]
  interval_cases k <;> rfl

/-- STATUS replies with the finalized frame of its body (42_dispatch.md R113). -/
theorem exec_status_of_env {s : State} {x : Option Byte} {fifo : List Byte} {rest : List EnvMove} (p : Payload)
    (h : ReplyEnv s x fifo rest) :
    exec (.status p) s = .next (replied codeStatus (finalizeBuffer (statusBody s.params.vReplyLayout
      (chanFreq s.params s.cfgChannel) (powVal s.params s.cfgPower))) x fifo rest s) :=
  reply_of_env codeStatus _ h

/-- Settles O40: the bytes named are those of the body under the default layout, and with the checksum and the trailer they
make a valid frame, so FINALIZE of the body is that frame. -/
theorem statusDefaultLayoutBytes : Obligations.StatusDefaultLayoutBytes := by
  intro p s f x fifo rest hlayout h0 h1 h2 h3 h4 h5 h6 h7 h8 h9 h10 h11 h12 h13 h14 h15 henv
  have hvalid : isValid f = true := by
    refine (isValid_iff f).2 ⟨?_, h15⟩
    rw [h14, checksum_eq, h1, h6, h7, h10, h11, h12, h13]
    simp
  replace h2 := eq_loByte_of_toNat h2
  replace h3 := eq_hiByte_of_toNat h3
  replace h4 := eq_loByte_of_toNat h4
  replace h5 := eq_hiByte_of_toNat h5
  have hbody (k : Nat) (hk : k < 14) : (statusBody s.params.vReplyLayout (chanFreq s.params s.cfgChannel)
      (powVal s.params s.cfgPower))[k] = f[k] := by
    rw [hlayout, ← defaultLayout, statusBody_defaultLayout]
    interval_cases k <;> simp only [h0, h1, h2, h3, h4, h5, h6, h7, h8, h9, h10, h11, h12, h13] <;> rfl
  rw [exec_status_of_env p henv, finalizeBuffer_eq_of_valid hvalid hbody]
  rfl

end Sys2Proof.Machine

namespace Sys2Proof.Machine

/-! ### The byte classes of the receiver (O20 to O26)

The three classes that go on with a frame append the byte and advance the cursor; the four that give up append it,
resynchronise and signal; and the completing byte appends and then runs or discards the frame. -/

/-- The filter of R84 and R85 in terms of its two parameters. -/
theorem codeAccepted_iff (p : Params) (b : Byte) :
    codeAccepted p b = true ↔ p.codeFilterEnabled = false ∨ b ∈ p.codeFilterSet := by
  simp [codeAccepted]

theorem codeAccepted_eq_false_iff (p : Params) (b : Byte) :
    codeAccepted p b = false ↔ p.codeFilterEnabled = true ∧ b ∉ p.codeFilterSet := by
  simp [codeAccepted]

/-- An append and an advance of the cursor, whatever receiver state comes next. -/
theorem goTo_nextCursor_appendByte (r : RxState) (b : Byte) (s : State) :
    goTo r (nextCursor s.cursor) (appendByte b s) =
      { s with rxState := r, cursor := s.cursor + 1, rxbuf := putAt s.rxbuf s.cursor b } := by
  simp only [goTo, storedCursor_nextCursor, appendByte]

/-- What every resynchronising class comes to: the byte stays in the buffer, and one event is signalled. -/
theorem diag_resync_appendByte {s : State} {a : List Byte} {r : List EnvMove} (e : DiagEvent) (b : Byte)
    (h : takeTurns 1 s.script = .ok (a, r)) :
    diag e b (resync (appendByte b s)) = .next { s with
      rxState := .awaitingHeader, cursor := 0, rxbuf := putAt s.rxbuf s.cursor b, rxFifo := s.rxFifo ++ a, script := r,
      trace := s.trace ++ [.diag e b] } :=
  diag_of_ok e b (s := resync (appendByte b s)) (takeTurns_one s.script ▸ h)

section

variable {s : State}

theorem rxStep_of_header (hstate : s.rxState = .awaitingHeader) (hc : s.cursor ≠ 15) :
    rxStep headerByte s = .next (goTo .awaitingCode (nextCursor s.cursor) (appendByte headerByte s)) := by
  rw [rxStep_awaitingHeader _ hstate, if_neg (not_not_intro rfl), if_neg hc, onHeader]

theorem rxStep_of_code {b : Byte} (hstate : s.rxState = .awaitingCode) (hb : codeAccepted s.params b = true)
    (hc : s.cursor ≠ 15) : rxStep b s = .next (goTo .accumulatingData (nextCursor s.cursor) (appendByte b s)) := by
  rw [rxStep_awaitingCode b hstate, if_neg (by simp [hb]), if_neg hc, onCode]

theorem rxStep_of_data (b : Byte) (hstate : s.rxState = .accumulatingData) (hc : s.cursor ≠ 15) :
    rxStep b s = .next (goTo .accumulatingData (nextCursor s.cursor) (appendByte b s)) := by
  rw [rxStep_accumulatingData b hstate, if_neg hc, onData, appendByte_rxState, hstate]

theorem rxStep_of_last (b : Byte) (hstate : s.rxState = .accumulatingData) (hc : s.cursor = 15) :
    rxStep b s = andThen (completeFrame (appendByte b s)) fun t => .next (resync t) := by
  rw [rxStep_accumulatingData b hstate, if_pos hc, onLast]

/-- The completing byte stands at offset 15. -/
theorem appendByte_at_fifteen (b : Byte) (hc : s.cursor = 15) :
    appendByte b s = { s with rxbuf := s.rxbuf.set 15 b } := by
  rw [appendByte, hc]
  rfl

theorem completeFrame_of_decoded {i : Instr} (h : decodeFrame s.rxbuf = .ok i) : completeFrame s = exec i s := by
  simp only [completeFrame, h]

theorem completeFrame_of_invalid (h : isValid s.rxbuf = false) :
    completeFrame s = diag .frameDiscarded s.rxbuf[1] s := by
  obtain ⟨e, he⟩ := decodeFrame_of_invalid h
  simp only [completeFrame, he]

end

/-- Settles O20: a header byte away from cursor 15 is of the HEADER class. -/
theorem headerByteStartsFrame : Obligations.HeaderByteStartsFrame := by
  intro s hstate hc
  exact (rxStep_of_header hstate hc).trans (congrArg _ (goTo_nextCursor_appendByte _ _ s))

/-- Settles O21: the test for the header comes before the cursor's. -/
theorem noiseByteResynchronizes : Obligations.NoiseByteResynchronizes := by
  intro s b a r hstate hb hturn
  rw [rxStep_awaitingHeader b hstate, if_pos (show b ≠ headerByte from hb)]
  exact diag_resync_appendByte .framingLoss b hturn

/-- Settles O22: the filter accepts the byte in the first clause and rejects it in the second. -/
theorem codeFilterDecidesFrame : Obligations.CodeFilterDecidesFrame := by
  intro s b hstate
  constructor
  · intro haccept hc
    rw [rxStep_of_code hstate ((codeAccepted_iff _ _).2 haccept) hc, goTo_nextCursor_appendByte]
  · intro henabled hb a r hturn
    rw [rxStep_awaitingCode b hstate, if_pos ((codeAccepted_eq_false_iff _ _).2 ⟨henabled, hb⟩)]
    exact diag_resync_appendByte .codeRejected b hturn

/-- Settles O23: away from cursor 15 a byte in AccumulatingData is of the DATA class, which keeps the receiver state. -/
theorem dataByteIsStored : Obligations.DataByteIsStored := by
  intro s b hstate hc
  rw [rxStep_of_data b hstate hc, goTo_nextCursor_appendByte, ← hstate]

/-- Settles O24: a valid frame's instruction runs before the resynchronisation, and an invalid frame's code, which the
completing byte leaves in place, is signalled. -/
theorem lastByteDispatchesOrDiscards : Obligations.LastByteDispatchesOrDiscards := by
  intro s b hstate hc
  rw [rxStep_of_last b hstate hc, appendByte_at_fifteen b hc]
  constructor
  · intro i _ hi t hexec
    rw [completeFrame_of_decoded hi, hexec]
    rfl
  · intro hvalid a r hturn
    rw [takeTurns_one] at hturn
    have hcode : (s.rxbuf.set 15 b)[1] = s.rxbuf[1] := Vector.getElem_set_ne _ _ (by decide)
    rw [completeFrame_of_invalid hvalid, diag_of_ok (s := { s with rxbuf := s.rxbuf.set 15 b }) _ _ hturn, ← hcode]
    rfl

/-- Settles O25: each corrupted state fails the tests before its own and is answered with RECOVERED. -/
theorem corruptedReceiverRecovers : Obligations.CorruptedReceiverRecovers := by
  intro s b a r hcorrupted hturn
  rw [← diag_resync_appendByte .recovered b hturn]
  obtain hstate | ⟨hstate, hc, rfl⟩ | ⟨hstate, hc, hb⟩ := hcorrupted
  · rw [rxStep_illegal b hstate, onIllegalState]
  · rw [rxStep_awaitingHeader _ hstate, if_neg (by decide : ¬(0x0F : Byte) ≠ headerByte), if_pos hc, onOverflow]
  · rw [rxStep_awaitingCode b hstate, if_neg (by simp [hb]), if_pos hc, onOverflow]

/-- Settles O26: a step that advances the cursor does so within its four bits, so a step that computes 16
resynchronises. -/
theorem cursorNeverPassesSixteen : Obligations.CursorNeverPassesSixteen := by
  intro s t b h
  have hnext := nextCursor_toNat s.cursor
  have hs := s.cursor.isLt
  have ht := t.cursor.isLt
  refine ⟨hnext, by omega, fun hsixteen => ?_, (rxStep_resyncs_or_advances h).imp_left And.symm⟩
  obtain ⟨-, hzero⟩ | hadvance := rxStep_resyncs_or_advances h
  · exact hzero
  · omega

/-! ### A step of a running pass (O29, O31) -/

/-- With a byte waiting, a step of a running pass is the receiver step of the oldest byte. -/
theorem step_of_byte {s : State} {a1 a2 q : List Byte} {r1 r2 : List EnvMove} {b : Byte} (hrun : s.passRunning = true)
    (h1 : takeTurns 1 s.script = .ok (a1, r1)) (hq : s.rxFifo ++ a1 = b :: q) (h2 : takeTurns 1 r1 = .ok (a2, r2)) :
    step s = rxStep b (fetched b (q ++ a2) r2 s) := by
  rw [takeTurns_one] at h1 h2
  rw [step_running hrun, passStep_of_ok h1 hq h2]

/-- Settles O29: the receiver step of a completing byte runs the frame it decodes to. -/
theorem stepRunsDecodedInstruction : Obligations.StepRunsDecodedInstruction := by
  intro s a1 a2 q r1 r2 b hrun h1 hq h2
  have hstep := step_of_byte hrun h1 hq h2
  refine ⟨hstep, fun i hstate hc hi => ?_⟩
  rw [hstep, rxStep_of_last (s := fetched b (q ++ a2) r2 s) b hstate hc,
    appendByte_at_fifteen (s := fetched b (q ++ a2) r2 s) b hc, completeFrame_of_decoded hi]
  rfl

/-- Settles O31: nothing waits and nothing arrives, so the `Avail` answers false and the pass returns. -/
theorem passEndsWhenFifoIsEmpty : Obligations.PassEndsWhenFifoIsEmpty := by
  intro s r hrun hempty hturn
  rw [takeTurns_one] at hturn
  rw [step_running hrun, passStep_of_empty hturn (by simp [hempty])]
  simp [endPass, emit, arrived]

/-! ### A frame received byte by byte (O30)

After `k` steps the receiver holds the first `k` bytes of the frame and the others wait.  Every step but the sixteenth leads
from one such state to the next, and the sixteenth completes the frame. -/

/-- The receiver state in which the byte at offset `k` of a frame is awaited (40_receiver.md R82, R84, R86). -/
def phaseAt : Nat → RxState
  | 0 => .awaitingHeader
  | 1 => .awaitingCode
  | _ + 2 => .accumulatingData

/-- The bytes of `f` below offset `k`, over those of `g`. -/
def overlay (f : Buffer) (k : Nat) (g : Buffer) : Buffer := Vector.ofFn fun i => if i.val < k then f[i] else g[i]

theorem overlay_get (f g : Buffer) (n k : Nat) (h : k < 16) : (overlay f n g)[k] = if k < n then f[k] else g[k] := by
  simp [overlay]

theorem overlay_zero (f g : Buffer) : overlay f 0 g = g :=
  buffer_ext fun k hk => by rw [overlay_get, if_neg (Nat.not_lt_zero k)]

theorem overlay_sixteen (f g : Buffer) : overlay f 16 g = f :=
  buffer_ext fun k hk => by rw [overlay_get, if_pos hk]

theorem putAt_overlay (f g : Buffer) {n : Nat} (hn : n < 16) :
    putAt (overlay f n g) (BitVec.ofNat 4 n) f[n] = overlay f (n + 1) g := by
  have hcursor : (BitVec.ofNat 4 n).toNat = n := by simpa using hn
  apply buffer_ext
  intro k hk
  rw [putAt_get, overlay_get, overlay_get, hcursor]
  by_cases hkn : n = k
  · subst hkn
    rw [if_pos rfl, if_pos (Nat.lt_succ_self n)]
  · have hlt : k < n + 1 ↔ k < n := by omega
    simp only [if_neg hkn, hlt]

/-- The events by which a pass takes bytes from the FIFO (40_receiver.md R92). -/
def fetchEvents (bs : List Byte) : List Event := bs.flatMap fun b => [.avail true, .readByte b]

/-- The state after the first `k` bytes of the frame `f`: the others wait, and `q` and the arrivals `a` behind them. -/
def receiving (f : Buffer) (q : List Byte) (k : Nat) (a : List Byte) (r : List EnvMove) (s : State) : State :=
  { s with
    rxState := phaseAt k
    cursor := BitVec.ofNat 4 k
    rxbuf := overlay f k s.rxbuf
    rxFifo := f.toList.drop k ++ (q ++ a)
    script := r
    trace := s.trace ++ fetchEvents (f.toList.take k) }

theorem receiving_zero {f : Buffer} {q : List Byte} {s : State} (hstate : s.rxState = .awaitingHeader)
    (hc : s.cursor = 0) (hq : s.rxFifo = f.toList ++ q) : receiving f q 0 [] s.script s = s := by
  cases s
  simp_all [receiving, phaseAt, overlay_zero, fetchEvents]

section

variable {f : Buffer} {q a a' : List Byte} {r r' : List EnvMove} {k : Nat} {s : State}

/-- In two turns, whatever arrives, the next byte of the frame is taken. -/
theorem step_receiving (hrun : s.passRunning = true) (hk : k < 16) (hturns : takeTurns 2 r = .ok (a', r')) :
    step (receiving f q k a r s) =
      rxStep f[k] (fetched f[k] (f.toList.drop (k + 1) ++ (q ++ (a ++ a'))) r' (receiving f q k a r s)) := by
  obtain ⟨a1, r1, a2, h1, h2, rfl⟩ := takeTurns_succ.1 hturns
  have hfifo : (receiving f q k a r s).rxFifo ++ a1 = f[k] :: (f.toList.drop (k + 1) ++ (q ++ (a ++ a1))) := by
    simp [receiving, List.drop_eq_getElem_cons (show k < f.toList.length by simpa using hk)]
  rw [step_of_byte (s := receiving f q k a r s) hrun ((takeTurns_one r).trans h1) hfifo h2]
  simp

/-- The byte taken from the FIFO stands behind those received before it. -/
theorem appendByte_fetched_receiving (hk : k < 16) :
    appendByte f[k] (fetched f[k] (f.toList.drop (k + 1) ++ (q ++ a')) r' (receiving f q k a r s)) =
      { receiving f q (k + 1) a' r' s with rxState := phaseAt k, cursor := BitVec.ofNat 4 k } := by
  have htake : f.toList.take (k + 1) = f.toList.take k ++ [f[k]] := by
    rw [List.take_succ_eq_append_getElem (by simpa using hk)]
    simp
  simp [appendByte, fetched, receiving, putAt_overlay f s.rxbuf hk, htake, fetchEvents]

/-- A byte of the frame but its last is of the class that goes on with the frame, whatever its value past the code. -/
theorem rxStep_at_phase {b : Byte} (hstate : s.rxState = phaseAt k) (hc : s.cursor ≠ 15)
    (hheader : k = 0 → b = headerByte) (hcode : k = 1 → codeAccepted s.params b = true) :
    rxStep b s = .next (goTo (phaseAt (k + 1)) (nextCursor s.cursor) (appendByte b s)) := by
  match k with
  | 0 =>
    obtain rfl := hheader rfl
    exact rxStep_of_header hstate hc
  | 1 => exact rxStep_of_code hstate (hcode rfl) hc
  | _ + 2 => exact rxStep_of_data b hstate hc

/-- A step from one state of the reception leads to the next (40_receiver.md R94, R95). -/
theorem step_receiving_next (hrun : s.passRunning = true) (hk : k < 15) (hheader : f[0] = headerByte)
    (hcode : codeAccepted s.params f[1] = true) (hturns : takeTurns 2 r = .ok (a', r')) :
    step (receiving f q k a r s) = .next (receiving f q (k + 1) (a ++ a') r' s) := by
  have hc : BitVec.ofNat 4 k ≠ 15 := by
    rw [ne_eq, ← BitVec.toNat_inj, BitVec.toNat_ofNat, Nat.mod_eq_of_lt (by omega)]
    exact hk.ne
  rw [step_receiving hrun (by omega) hturns, rxStep_at_phase (k := k) rfl hc, appendByte_fetched_receiving (by omega)]
  · have hcursor : storedCursor (nextCursor (BitVec.ofNat 4 k)) = BitVec.ofNat 4 (k + 1) := by
      rw [storedCursor_nextCursor, BitVec.ofNat_add]
      rfl
    exact congrArg (fun c => Host.Outcome.next { receiving f q (k + 1) (a ++ a') r' s with cursor := c }) hcursor
  · rintro rfl
    exact hheader
  · rintro rfl
    exact hcode

/-- The first fifteen bytes, in two turns each. -/
theorem runSteps_receiving (hrun : s.passRunning = true) (hstate : s.rxState = .awaitingHeader) (hc : s.cursor = 0)
    (hheader : f[0] = headerByte) (hcode : codeAccepted s.params f[1] = true) (hq : s.rxFifo = f.toList ++ q)
    (hk : k ≤ 15) (hturns : takeTurns (2 * k) s.script = .ok (a, r)) :
    runSteps k s = .next (receiving f q k a r s) := by
  induction k generalizing a r with
  | zero =>
    obtain ⟨rfl, rfl⟩ : [] = a ∧ s.script = r := by simpa [takeTurns] using hturns
    rw [receiving_zero hstate hc hq, runSteps]
  | succ k ih =>
    obtain ⟨a1, r1, a2, h1, h2, rfl⟩ := (takeTurns_add (m := 2 * k) (n := 2)).1 hturns
    rw [runSteps, ih (by omega) h1, andThen_next, step_receiving_next hrun (by omega) hheader hcode h2]

/-- The state in which the whole frame stands in the buffer, its last byte just appended. -/
def received (f : Buffer) (fifo : List Byte) (r : List EnvMove) (s : State) : State :=
  { s with
    rxState := .accumulatingData
    cursor := 15
    rxbuf := f
    rxFifo := fifo
    script := r
    trace := s.trace ++ fetchEvents f.toList }

/-- The sixteenth byte completes the frame. -/
theorem step_receiving_last (hrun : s.passRunning = true) (hturns : takeTurns 2 r = .ok (a', r')) :
    step (receiving f q 15 a r s) =
      andThen (completeFrame (received f (q ++ (a ++ a')) r' s)) fun t => .next (resync t) := by
  have hwhole : f.toList.take 16 = f.toList := List.take_of_length_le (by simp)
  have hnone : f.toList.drop 16 = [] := List.drop_of_length_le (by simp)
  rw [step_receiving hrun (by decide) hturns, rxStep_of_last _ rfl rfl, appendByte_fetched_receiving (by decide)]
  simp [receiving, received, phaseAt, overlay_sixteen, hwhole, hnone]

end

/-- Settles O30: fifteen steps receive all but the last byte, and the sixteenth runs the whole frame or discards it. -/
theorem sixteenBytesRunTheFrame : Obligations.SixteenBytesRunTheFrame := by
  intro s f q a r hrun hstate hc hheader hcode hq hturns
  obtain ⟨a1, r1, a2, h1, h2, rfl⟩ := (takeTurns_add (m := 2 * 15) (n := 2)).1 hturns
  have hrunSteps : runSteps 16 s =
      andThen (completeFrame (received f (q ++ (a1 ++ a2)) r s)) fun t => .next (resync t) := by
    rw [runSteps, runSteps_receiving hrun hstate hc hheader hcode hq le_rfl h1, andThen_next,
      step_receiving_last hrun h2]
  rw [hrunSteps]
  refine ⟨fun i hi => ?_, fun hvalid => ?_⟩
  · rw [completeFrame_of_decoded (s := received f _ r s) hi]
    rfl
  · rw [completeFrame_of_invalid (s := received f _ r s) hvalid]
    rfl

end Sys2Proof.Machine

namespace Sys2Proof.Machine

/-! ### All bytes sent form whole valid frames (O15)

An arm that replies sends one finalized frame, whose body begins with the header whatever the STATUS layout, since a
well-formed layout keeps its fields off byte 0; every other event of a step sends nothing. -/

theorem layout_flags_ge_two {l : VReplyLayout} (h : l.wf = true) : 2 ≤ l.lock.val ∧ 2 ≤ l.pit.val := by
  simp only [VReplyLayout.wf, VReplyLayout.offsets, Bool.and_eq_true, List.all_cons, decide_eq_true_eq] at h
  omega

/-- The STATUS fields leave the header alone (30_encoding.md R61, R69). -/
theorem statusBody_get_zero {l : VReplyLayout} (h : l.wf = true) (freq pwr : Half) :
    (statusBody l freq pwr)[0] = headerByte := by
  obtain ⟨hlock, hpit⟩ := layout_flags_ge_two h
  have hfreq := (halfOffset_aligned l.freq).2.1
  have hset := (halfOffset_aligned l.setPower).2.1
  have hactual := (halfOffset_aligned l.actualPower).2.1
  rw [statusBody_get]
  repeat rw [if_neg (by omega)]
  rfl

theorem layout_wf_of_params_wf {p : Params} (h : p.wf = true) : p.vReplyLayout.wf = true :=
  (Bool.and_eq_true_iff.1 h).2

theorem replyBodyOf_get_zero {i : Instr} {s : State} {c : Byte} {body : Buffer} (hwf : s.params.wf = true)
    (h : replyBodyOf i s = some (c, body)) : body[0] = headerByte := by
  cases i with
  | range p =>
    obtain ⟨-, rfl⟩ : codeRange = c ∧ rangeBody = body := by simpa [replyBodyOf] using h
    rfl
  | status p =>
    obtain ⟨-, rfl⟩ : codeStatus = c ∧ statusBody s.params.vReplyLayout (chanFreq s.params s.cfgChannel)
        (powVal s.params s.cfgPower) = body := by simpa [replyBodyOf] using h
    exact statusBody_get_zero (layout_wf_of_params_wf hwf) _ _
  | setFreq freq rest => simp [replyBodyOf] at h
  | setPower p =>
    obtain ⟨-, rfl⟩ : codeSetPower = c ∧ setPowerBody s.params.sAckPayload = body := by simpa [replyBodyOf] using h
    rfl
  | other code p => simp [replyBodyOf] at h

/-- FINALIZE leaves the header where the body has it. -/
theorem finalizeBuffer_get_zero (f : Buffer) : (finalizeBuffer f)[0] = f[0] := by
  rw [finalizeBuffer_get, if_neg (by decide), if_neg (by decide)]

/-- What sends nothing keeps the sink framed. -/
theorem SinkFramed.congr {s t : State} (hs : SinkFramed s) (h : txSink t = txSink s) : SinkFramed t := by
  rwa [SinkFramed, h]

theorem SinkFramed.after_emit {s : State} {e : Event} (hs : SinkFramed s) (he : sentBytes [e] = []) :
    SinkFramed (emit e s) :=
  hs.congr (by simp [txSink, he])

theorem txSink_replied (code : Byte) (f : Buffer) (x : Option Byte) (fifo : List Byte) (rest : List EnvMove)
    (s : State) : txSink (replied code f x fifo rest s) = txSink s ++ f.toList := by
  simp [txSink, replied]

/-- A reply adds its whole frame to the sink. -/
theorem SinkFramed.after_reply {s : State} {f : Buffer} (hs : SinkFramed s) (hvalid : isValid f = true)
    (hheader : f[0] = headerByte) (code : Byte) (x : Option Byte) (fifo : List Byte) (rest : List EnvMove) :
    SinkFramed (replied code f x fifo rest s) := by
  obtain ⟨frames, hsink, hframes⟩ := hs
  refine ⟨frames ++ [f], by simp [txSink_replied, hsink], fun g hg => ?_⟩
  rcases List.mem_append.1 hg with hold | hnew
  · exact hframes g hold
  · obtain rfl := List.mem_singleton.1 hnew
    exact ⟨hvalid, hheader⟩

theorem exec_keeps_sinkFramed {i : Instr} {s t : State} (hwf : s.params.wf = true) (hs : SinkFramed s)
    (h : exec i s = .next t) : SinkFramed t := by
  obtain ⟨c, body, x, fifo, rest, hbody, -, rfl⟩ | ⟨freq, other, j, a1, r1, a2, r2, -, -, -, -, rfl⟩ |
    ⟨e, x, a, r, -, rfl, -⟩ := exec_cases h
  · have hheader := (finalizeBuffer_get_zero body).trans (replyBodyOf_get_zero hwf hbody)
    exact hs.after_reply (isValid_finalizeBuffer body) hheader c x fifo rest
  · have hwritten : SinkFramed (writeCfgChannel j s) := hs.after_emit rfl
    have happlied : SinkFramed (emit (.applyChannel j) (arrived a1 r1 (writeCfgChannel j s))) := hwritten.after_emit rfl
    exact happlied.after_emit rfl
  · exact hs.after_emit rfl

theorem completeFrame_keeps_sinkFramed {s t : State} (hwf : s.params.wf = true) (hs : SinkFramed s)
    (h : completeFrame s = .next t) : SinkFramed t := by
  obtain ⟨i, -, hexec⟩ | ⟨e, a, r, -, -, rfl⟩ := completeFrame_cases h
  · exact exec_keeps_sinkFramed hwf hs hexec
  · exact hs.after_emit rfl

theorem rxStep_keeps_sinkFramed {b : Byte} {s t : State} (hwf : s.params.wf = true) (hs : SinkFramed s)
    (h : rxStep b s = .next t) : SinkFramed t := by
  obtain ⟨r', -, rfl, -⟩ | ⟨e, a, r, -, rfl, -⟩ | ⟨u, -, -, hcomplete, rfl⟩ := rxStep_cases h
  · exact hs
  · exact hs.after_emit rfl
  · exact completeFrame_keeps_sinkFramed (s := appendByte b s) (t := u) hwf hs hcomplete

theorem passStep_keeps_sinkFramed {s t : State} (hwf : s.params.wf = true) (hs : SinkFramed s)
    (h : passStep s = .next t) : SinkFramed t := by
  obtain ⟨a, r, -, -, rfl⟩ | ⟨a1, r1, a2, r2, b, q, -, -, -, hstep⟩ := passStep_cases h
  · exact hs.after_emit rfl
  · have hfetched : SinkFramed (fetched b (q ++ a2) r2 s) := hs.congr (by simp [txSink, fetched])
    exact rxStep_keeps_sinkFramed (s := fetched b (q ++ a2) r2 s) hwf hfetched hstep

theorem idleStep_keeps_sinkFramed {s t : State} (hs : SinkFramed s) (h : idleStep s = .next t) : SinkFramed t :=
  hs.congr (congrArg sentBytes (idleStep_trace h))

theorem rxStep_params {b : Byte} {s t : State} (h : rxStep b s = .next t) : t.params = s.params := by
  obtain ⟨r', -, rfl, -⟩ | ⟨e, a, r, -, rfl, -⟩ | ⟨u, -, -, hcomplete, rfl⟩ := rxStep_cases h
  · rfl
  · rfl
  · exact completeFrame_params (s := appendByte b s) (t := u) hcomplete

theorem passStep_params {s t : State} (h : passStep s = .next t) : t.params = s.params := by
  obtain ⟨a, r, -, -, rfl⟩ | ⟨a1, r1, a2, r2, b, q, -, -, -, hstep⟩ := passStep_cases h
  · rfl
  · exact rxStep_params (s := fetched b (q ++ a2) r2 s) hstep

theorem idleStep_params {s t : State} (h : idleStep s = .next t) : t.params = s.params := by
  obtain ⟨-, rfl⟩ | ⟨m, rest, -, rfl⟩ := idleStep_cases h
  · rfl
  · cases m <;> rfl

/-- No step writes the parameters (10_state.md R29). -/
theorem step_params {s t : State} (h : step s = .next t) : t.params = s.params := by
  cases hrun : s.passRunning with
  | true => exact passStep_params (step_running hrun ▸ h)
  | false => exact idleStep_params (step_idle hrun ▸ h)

/-- Settles O15: a step sends nothing or one whole finalized frame, and writes no parameter. -/
theorem sentBytesStayValidFrames : Obligations.SentBytesStayValidFrames := by
  intro s t hwf hs h
  refine ⟨by rw [step_params h, hwf], ?_⟩
  cases hrun : s.passRunning with
  | true => exact passStep_keeps_sinkFramed hwf hs (step_running hrun ▸ h)
  | false => exact idleStep_keeps_sinkFramed hs (step_idle hrun ▸ h)

end Sys2Proof.Machine

namespace Sys2Proof.Machine

/-! ### The checksum as a sum (O3, O6, O7, O9)

A fold that adds up bytes is the sum of the listed bytes in the ring of bytes, so the library's facts about sums give the
laws: a number modulo 256, no order, and any one summand split off. -/

theorem foldl_add_eq_sum (f : Buffer) (offsets : List (Fin 16)) :
    offsets.foldl (fun acc i => acc + f[i]) 0x00 = (offsets.map fun i => f[i]).sum := by
  rw [List.sum_eq_foldl, List.foldl_map]

theorem checksum_eq_sum (f : Buffer) : checksum f = (csumOffsets.map fun i => f[i]).sum :=
  foldl_add_eq_sum f csumOffsets

theorem toNat_sum_bytes (bytes : List Byte) : bytes.sum.toNat = (bytes.map BitVec.toNat).sum % 256 := by
  induction bytes with
  | nil => rfl
  | cons b bs ih => rw [List.sum_cons, List.map_cons, List.sum_cons, BitVec.toNat_add, ih, Nat.add_mod_mod]

theorem checksum_toNat (f : Buffer) : (checksum f).toNat = (csumOffsets.map fun i => f[i].toNat).sum % 256 := by
  rw [checksum_eq_sum, toNat_sum_bytes, List.map_map]
  rfl

/-- Thirteen bytes sum to at most 13 times 255. -/
theorem sum_csumOffsets_le (f : Buffer) : (csumOffsets.map fun i => f[i].toNat).sum ≤ 3315 := by
  have hbyte : ∀ n ∈ csumOffsets.map fun i => f[i].toNat, n ≤ 255 := by
    intro n hn
    obtain ⟨i, -, rfl⟩ := List.mem_map.1 hn
    exact Nat.le_of_lt_succ f[i].isLt
  have hsum := List.sum_le_card_nsmul _ 255 hbyte
  rwa [List.length_map, show csumOffsets.length • 255 = 3315 from rfl] at hsum

/-- A write outside the summed offsets leaves the checksum. -/
theorem checksum_set_of_excluded (f : Buffer) {k : Nat} (h : k < 16) (b : Byte) (hk : k = 0 ∨ 13 < k) :
    checksum (f.set k b) = checksum f :=
  checksum_congr fun j _ hlo hhi => Vector.getElem_set_ne _ _ (by omega)

/-- Settles O6: the fold is the sum of the thirteen bytes, and those bytes alone. -/
theorem checksumIsSumModulo256 : Obligations.ChecksumIsSumModulo256 := by
  intro f
  refine ⟨checksum_toNat f, rfl, ?_, sum_csumOffsets_le f, fun b => ⟨?_, ?_, ?_⟩⟩
  · rintro rfl
    rfl
  · exact checksum_set_of_excluded f (by decide) b (.inl rfl)
  · exact checksum_set_of_excluded f (by decide) b (.inr (by decide))
  · exact checksum_set_of_excluded f (by decide) b (.inr (by decide))

theorem mem_csumOffsets : ∀ i : Fin 16, i ∈ csumOffsets ↔ 1 ≤ i.val ∧ i.val ≤ 13 := by decide

theorem csumOffsets_nodup : csumOffsets.Nodup := by decide

/-- One summed byte split off from the others. -/
theorem checksum_eq_add_others (f : Buffer) {i : Fin 16} (hi : i ∈ csumOffsets) :
    checksum f = f[i] + ((csumOffsets.erase i).map fun j => f[j]).sum := by
  rw [checksum_eq_sum, List.sum_map_erase (fun j => f[j]) hi]

theorem checksum_set (f : Buffer) {i : Fin 16} (hi : i ∈ csumOffsets) (b : Byte) :
    checksum (f.set i b) = b + ((csumOffsets.erase i).map fun j => f[j]).sum := by
  have hothers : ((csumOffsets.erase i).map fun j => (f.set i b)[j]) = (csumOffsets.erase i).map fun j => f[j] := by
    refine List.map_congr_left fun j hj => ?_
    have hne : j ≠ i := (csumOffsets_nodup.mem_erase_iff.1 hj).1
    exact Vector.getElem_set_ne _ _ (Fin.val_ne_of_ne hne.symm)
  rw [checksum_eq_add_others (f.set i b) hi, hothers]
  congr 1
  exact Vector.getElem_set_self _

/-- Settles O7: with the other bytes fixed the checksum is injective in each summed byte, and a sum has no order. -/
theorem checksumDetectsByteChanges : Obligations.ChecksumDetectsByteChanges := by
  refine ⟨fun f k h b hlo hhi hb heq => ?_, fun f g => ?_, fun f order hperm => ?_⟩
  · have hk : (⟨k, h⟩ : Fin 16) ∈ csumOffsets := (mem_csumOffsets ⟨k, h⟩).2 ⟨hlo, hhi⟩
    have hsums := (checksum_set f hk b).symm.trans (heq.trans (checksum_eq_add_others f hk))
    exact hb (add_right_cancel hsums)
  · rw [← BitVec.toNat_inj, checksum_toNat, checksum_toNat]
  · rw [foldl_add_eq_sum, checksum_eq_sum]
    exact (hperm.map _).sum_eq

/-- Validity reads bytes 1 to 15 alone (41_checksum.md R101). -/
theorem isValid_set_zero (f : Buffer) (b : Byte) : isValid (f.set 0 b) = isValid f := by
  have hsum : checksum (f.set 0 b) = checksum f := checksum_set_of_excluded f (by decide) b (.inl rfl)
  have h14 : (f.set 0 b)[14] = f[14] := Vector.getElem_set_ne _ _ (by decide)
  have h15 : (f.set 0 b)[15] = f[15] := Vector.getElem_set_ne _ _ (by decide)
  rw [isValid, hsum, h14, h15, isValid]

theorem exists_decodeFrame_ok_iff (f : Buffer) : (∃ i, decodeFrame f = .ok i) ↔ isValid f = true :=
  ⟨fun ⟨_, hi⟩ => (decodeFrame_ok hi).1, fun h => ⟨_, decodeFrame_of_valid h⟩⟩

/-- Settles O3: validity is the two tests, and it alone decides whether a buffer decodes. -/
theorem frameDecodesExactlyWhenValid : Obligations.FrameDecodesExactlyWhenValid := by
  intro f
  refine ⟨?_, exists_decodeFrame_ok_iff f, isValid_set_zero f⟩
  rw [isValid_iff, checksum_eq]
  rfl

/-- Settles O9: FINALIZE leaves the finalized transmit buffer. -/
theorem finalizeWritesChecksumAndTrailer : Obligations.FinalizeWritesChecksumAndTrailer := by
  intro s
  refine ⟨finalizeBuffer s.txbuf, rfl, finalizeBuffer_get _ 14 _, finalizeBuffer_get _ 15 _, fun k hk => ?_,
    isValid_finalizeBuffer _⟩
  rw [finalizeBuffer_get, if_neg (by omega), if_neg (by omega)]

/-! ### A running accumulator (O8)

Each append adds its byte to the sum of the summed bytes below the cursor, when its offset is a summed one, and that is what
the accumulator adds.  A header comes at cursor 0, where both start from nothing; a resynchronisation leaves nothing to
agree on. -/

theorem partialSum_eq_sum (f : Buffer) (n : Nat) :
    partialSum f n = ((csumOffsets.filter fun i => i.val < n).map fun i => f[i]).sum :=
  foldl_add_eq_sum f _

/-- The partial sum below `n` reads the bytes below `n`. -/
theorem partialSum_congr {f g : Buffer} {n : Nat} (h : ∀ (k : Nat) (hk : k < 16), k < n → f[k] = g[k]) :
    partialSum f n = partialSum g n := by
  rw [partialSum_eq_sum, partialSum_eq_sum]
  refine congrArg List.sum (List.map_congr_left fun i hi => h i i.isLt ?_)
  simpa using (List.mem_filter.1 hi).2

theorem filter_csumOffsets_succ : ∀ i : Fin 16, csumOffsets.filter (fun j => j.val < i.val + 1) =
    csumOffsets.filter (fun j => j.val < i.val) ++ if 1 ≤ i.val ∧ i.val ≤ 13 then [i] else [] := by
  decide

theorem partialSum_succ (f : Buffer) {n : Nat} (hn : n < 16) :
    partialSum f (n + 1) = if 1 ≤ n ∧ n ≤ 13 then partialSum f n + f[n] else partialSum f n := by
  have hoffsets := filter_csumOffsets_succ ⟨n, hn⟩
  rw [partialSum, hoffsets, List.foldl_append]
  split_ifs <;> rfl

theorem partialSum_fifteen (f : Buffer) : partialSum f 15 = checksum f := rfl

/-- The append at the cursor, then the partial sum past it. -/
theorem partialSum_putAt (f : Buffer) (c : BitVec 4) (b : Byte) : partialSum (putAt f c b) (c.toNat + 1) =
    if 1 ≤ c.toNat ∧ c.toNat ≤ 13 then partialSum f c.toNat + b else partialSum f c.toNat := by
  have hbelow : partialSum (putAt f c b) c.toNat = partialSum f c.toNat :=
    partialSum_congr fun k hk hlt => by rw [putAt_get, if_neg hlt.ne']
  rw [partialSum_succ _ c.isLt, hbelow, putAt_get, if_pos rfl]

/-- The HEADER class clears the accumulator (41_checksum.md R102). -/
theorem accumulate_header (acc : Byte) {s : State} (h : s.rxState = .awaitingHeader) :
    accumulate acc headerByte s = 0 := by
  simp [accumulate, h]

theorem accumulate_inFrame (acc b : Byte) {s : State} (h : s.rxState ≠ .awaitingHeader) :
    accumulate acc b s = if 1 ≤ s.cursor.toNat ∧ s.cursor.toNat ≤ 13 then acc + b else acc := by
  simp [accumulate, h]

theorem accAgrees_of_awaitingHeader (acc : Byte) {s : State} (h : s.rxState = .awaitingHeader) : AccAgrees acc s :=
  fun hne => absurd h hne

/-- After an advance the accumulator has the partial sum past the appended byte to agree with. -/
theorem accAgrees_of_advance {acc b : Byte} {s : State} (r : RxState) (hc : s.cursor ≠ 15)
    (h : acc = partialSum (putAt s.rxbuf s.cursor b) (s.cursor.toNat + 1)) :
    AccAgrees acc (goTo r (nextCursor s.cursor) (appendByte b s)) := by
  intro _
  rw [goTo_rxbuf, appendByte_rxbuf, goTo_cursor, storedCursor_toNat hc]
  exact h

theorem accumulate_header_eq_partialSum (acc : Byte) {s : State} (hinv : RxInv s) (hstate : s.rxState = .awaitingHeader) :
    accumulate acc headerByte s = partialSum (putAt s.rxbuf s.cursor headerByte) (s.cursor.toNat + 1) := by
  rw [accumulate_header acc hstate, partialSum_putAt, hinv.cursor_of_awaitingHeader hstate]
  rfl

theorem AccAgrees.accumulate_eq_partialSum {acc : Byte} (b : Byte) {s : State} (h : AccAgrees acc s)
    (hstate : s.rxState ≠ .awaitingHeader) :
    accumulate acc b s = partialSum (putAt s.rxbuf s.cursor b) (s.cursor.toNat + 1) := by
  rw [accumulate_inFrame acc b hstate, partialSum_putAt, h hstate]

theorem rxStep_keeps_accAgrees {acc b : Byte} {s t : State} (hinv : RxInv s) (hacc : AccAgrees acc s)
    (h : rxStep b s = .next t) : AccAgrees (accumulate acc b s) t := by
  obtain ⟨r', hc, rfl, ⟨hstate, rfl, -⟩ | ⟨hstate, -⟩ | ⟨hstate, -⟩⟩ | ⟨e, a, r, -, rfl, -⟩ |
    ⟨u, -, -, -, rfl⟩ := rxStep_cases h
  · exact accAgrees_of_advance r' hc (accumulate_header_eq_partialSum acc hinv hstate)
  · exact accAgrees_of_advance r' hc (hacc.accumulate_eq_partialSum b (by simp [hstate]))
  · exact accAgrees_of_advance r' hc (hacc.accumulate_eq_partialSum b (by simp [hstate]))
  · exact accAgrees_of_awaitingHeader _ rfl
  · exact accAgrees_of_awaitingHeader _ rfl

/-- At cursor 15 the accumulator is the checksum, which the byte at offset 15 does not change. -/
theorem AccAgrees.eq_checksum {acc : Byte} (b : Byte) {s : State} (h : AccAgrees acc s)
    (hstate : s.rxState = .accumulatingData) (hc : s.cursor = 15) : acc = checksum (putAt s.rxbuf s.cursor b) := by
  have hlast : acc = partialSum s.rxbuf 15 := by simpa [hc] using h (by simp [hstate])
  rw [hlast, partialSum_fifteen, hc]
  exact (checksum_set_of_excluded s.rxbuf (by decide) b (.inr (by decide))).symm

/-- Settles O8: the receiver steps keep the agreement, which at cursor 15 is with the whole checksum. -/
theorem runningAccumulatorEqualsChecksum : Obligations.RunningAccumulatorEqualsChecksum :=
  ⟨fun _ _ _ _ => rxStep_keeps_accAgrees, fun _ _ b _ hacc hstate hc => hacc.eq_checksum b hstate hc,
    fun acc => accAgrees_of_awaitingHeader acc rfl⟩

end Sys2Proof.Machine

namespace Sys2Proof.Machine

/-! ### The selection of the arm (O4) -/

/-- Settles O4: a frame that decodes is read by the one row of the opcode table that its command byte stands in. -/
theorem commandByteSelectsArm : Obligations.CommandByteSelectsArm := by
  intro f i h
  obtain ⟨-, rfl⟩ := decodeFrame_ok h
  refine ⟨instrOf_range, instrOf_status, fun hcode => ?_, instrOf_setPower, fun hrange hstatus hsetFreq hsetPower => ?_⟩
  · exact ⟨memRead2 f .at2, instrOf_setFreq hcode, memRead2_toNat f .at2⟩
  · exact instrOf_other ((other_wf_iff _ _).2 ⟨hrange, hstatus, hsetFreq, hsetPower⟩)

/-! ### The table lookups (O11) -/

section

variable {p : Params} {i : Byte} {v : Half}

theorem chanFreq_of_lt (h : i.toNat < 10) : chanFreq p i = p.channelTable[i.toNat] := dif_pos h

theorem chanFreq_of_ge (h : 10 ≤ i.toNat) : chanFreq p i = p.freqSentinel := dif_neg h.not_gt

theorem powVal_of_lt (h : i.toNat < 2) : powVal p i = p.powerTable[i.toNat] := dif_pos h

theorem powVal_of_ge (h : 2 ≤ i.toNat) : powVal p i = p.powerDefault := dif_neg h.not_gt

/-- The forward lookup of an index in range is the entry of the table's list. -/
theorem channelTable_getElem? (h : i.toNat < 10) : p.channelTable.toList[i.toNat]? = some (chanFreq p i) := by
  rw [Vector.getElem?_toList, Vector.getElem?_eq_getElem h, chanFreq_of_lt h]

/-- The search for a value finds its first occurrence. -/
theorem findIdx?_beq_eq_some_iff (table : List Half) (v : Half) (n : Nat) : table.findIdx? (· == v) = some n ↔
    table[n]? = some v ∧ ∀ k, k < n → table[k]? ≠ some v := by
  rw [List.findIdx?_eq_some_iff_getElem]
  constructor
  · rintro ⟨hn, heq, hleast⟩
    refine ⟨List.getElem?_eq_some_iff.2 ⟨hn, by simpa using heq⟩, fun k hk hentry => ?_⟩
    obtain ⟨_, hkv⟩ := List.getElem?_eq_some_iff.1 hentry
    exact hleast k hk (by simpa using hkv)
  · rintro ⟨hentry, hleast⟩
    obtain ⟨hn, hnv⟩ := List.getElem?_eq_some_iff.1 hentry
    refine ⟨hn, by simpa using hnv, fun k hk heq => hleast k hk ?_⟩
    exact List.getElem?_eq_some_iff.2 ⟨hk.trans hn, by simpa using heq⟩

/-- The reverse lookup is the least matching index; the ten indices fit a byte (42_dispatch.md R117). -/
theorem chanIndex_eq_some_iff : chanIndex p v = some i ↔
    i.toNat < 10 ∧ p.channelTable.toList[i.toNat]? = some v ∧
      ∀ k, k < i.toNat → p.channelTable.toList[k]? ≠ some v := by
  rw [chanIndex, Option.map_eq_some_iff]
  constructor
  · rintro ⟨n, hn, rfl⟩
    have hfound := (findIdx?_beq_eq_some_iff _ _ _).1 hn
    have hlt : n < 10 := by simpa using (List.getElem?_eq_some_iff.1 hfound.1).1
    have htoNat : (BitVec.ofNat 8 n).toNat = n := by rw [BitVec.toNat_ofNat]; omega
    rw [htoNat]
    exact ⟨hlt, hfound⟩
  · rintro ⟨-, hfound⟩
    exact ⟨i.toNat, (findIdx?_beq_eq_some_iff _ _ _).2 hfound, BitVec.eq_of_toNat_eq (by simp)⟩

theorem chanIndex_eq_none_iff : chanIndex p v = none ↔ v ∉ p.channelTable.toList := by
  rw [chanIndex, Option.map_eq_none_iff]
  exact List.idxOf?_eq_none_iff

/-- The index found holds the frequency searched for. -/
theorem chanFreq_of_chanIndex (h : chanIndex p v = some i) : chanFreq p i = v := by
  obtain ⟨hlt, hentry, -⟩ := chanIndex_eq_some_iff.1 h
  exact Option.some.inj ((channelTable_getElem? hlt).symm.trans hentry)

/-- On a table without repeats the reverse lookup inverts the forward one. -/
theorem chanIndex_chanFreq (hp : p.bidirectional = true) (h : i.toNat < 10) : chanIndex p (chanFreq p i) = some i := by
  have hnodup : p.channelTable.toList.Nodup := of_decide_eq_true hp
  refine chanIndex_eq_some_iff.2 ⟨h, channelTable_getElem? h, fun k hk => ?_⟩
  rw [← channelTable_getElem? h]
  exact List.nodup_iff_getElem?_ne_getElem?.1 hnodup k i.toNat hk (by simpa using h)

end

/-- Settles O11: the forward lookups test the index, and the reverse lookup is a search from the first entry. -/
theorem lookupsFollowTables : Obligations.LookupsFollowTables := fun _ =>
  ⟨fun _ => chanFreq_of_lt, fun _ => chanFreq_of_ge, fun _ => powVal_of_lt, fun _ => powVal_of_ge,
    fun _ _ => chanIndex_eq_some_iff, fun _ => chanIndex_eq_none_iff, fun hp _ => chanIndex_chanFreq hp⟩

/-! ### SETFREQ and OTHER (O41, O42, O44, O46, O47) -/

/-- The state after SETFREQ tuned to `i`: the store written, the driver called, the result signalled. -/
def tunedTo (i : Byte) (a : List Byte) (r : List EnvMove) (s : State) : State :=
  { s with
    cfgChannel := i
    rxFifo := s.rxFifo ++ a
    script := r
    trace := s.trace ++ [.cfgChannel i, .applyChannel i, .diag .cmdProcessed codeSetFreq] }

/-- The state after nothing but a diagnostic event. -/
def signalled (e : DiagEvent) (x : Byte) (a : List Byte) (r : List EnvMove) (s : State) : State :=
  { s with rxFifo := s.rxFifo ++ a, script := r, trace := s.trace ++ [.diag e x] }

theorem diag_of_turn {s : State} {a : List Byte} {r : List EnvMove} (e : DiagEvent) (x : Byte)
    (h : takeTurns 1 s.script = .ok (a, r)) : diag e x s = .next (signalled e x a r s) :=
  diag_of_ok e x (takeTurns_one s.script ▸ h)

/-- The writes of SETFREQ and the two turns between them, put together. -/
theorem emit_tune_eq_tunedTo (i : Byte) (a1 a2 : List Byte) (r1 r2 : List EnvMove) (s : State) :
    emit (.diag .cmdProcessed codeSetFreq)
      (arrived a2 r2 (emit (.applyChannel i) (arrived a1 r1 (writeCfgChannel i s)))) = tunedTo i (a1 ++ a2) r2 s := by
  simp [tunedTo, emit, arrived, writeCfgChannel]

theorem exec_setFreq_of_match {s : State} {freq : Half} {i : Byte} {a : List Byte} {r : List EnvMove}
    (rest : PayloadRest) (hi : chanIndex s.params freq = some i) (h : takeTurns 2 s.script = .ok (a, r)) :
    exec (.setFreq freq rest) s = .next (tunedTo i a r s) := by
  obtain ⟨a1, r1, a2, h1, h2, rfl⟩ := takeTurns_succ.1 h
  rw [takeTurns_one] at h2
  simp only [exec, execSetFreq, hi, applyChannel_of_ok (s := writeCfgChannel i s) i h1, andThen_next]
  rw [diag_of_ok _ _ h2, emit_tune_eq_tunedTo]

theorem exec_setFreq_of_no_match {s : State} {freq : Half} (rest : PayloadRest)
    (hnone : chanIndex s.params freq = none) : exec (.setFreq freq rest) s = diag .cmdProcessed codeSetFreq s := by
  simp only [exec, execSetFreq, hnone]

/-- Settles O41: the index is the one the reverse lookup finds. -/
theorem setFreqMatchTunesChannel : Obligations.SetFreqMatchTunesChannel := by
  intro freq other s i a r hlt hentry hleast hturns
  exact exec_setFreq_of_match other (chanIndex_eq_some_iff.2 ⟨hlt, hentry, hleast⟩) hturns

/-- Settles O42: the reverse lookup finds nothing, and what is left of the arm is its signal. -/
theorem setFreqNoMatchChangesNothing : Obligations.SetFreqNoMatchChangesNothing := by
  intro freq other s a r hmem hturn
  rw [exec_setFreq_of_no_match other (chanIndex_eq_none_iff.2 hmem)]
  exact diag_of_turn _ _ hturn

/-- Settles O44: the arm is its signal. -/
theorem otherCodeOnlySignals : Obligations.OtherCodeOnlySignals :=
  fun _ _ _ _ _ hturn => diag_of_turn _ _ hturn

/-- What a dispatch that completes left: a reply, a tuned channel, or a signal alone. -/
theorem exec_next {i : Instr} {s t : State} (h : exec i s = .next t) :
    (∃ c body x fifo rest, replyBodyOf i s = some (c, body) ∧ t = replied c (finalizeBuffer body) x fifo rest s) ∨
      (∃ freq rest j a r, i = .setFreq freq rest ∧ chanIndex s.params freq = some j ∧ t = tunedTo j a r s) ∨
      (∃ freq rest a r, i = .setFreq freq rest ∧ chanIndex s.params freq = none ∧
        t = signalled .cmdProcessed codeSetFreq a r s) ∨
      (∃ code p a r, i = .other code p ∧ t = signalled .cmdIgnored code a r s) := by
  obtain ⟨c, body, x, fifo, rest, hbody, -, rfl⟩ | ⟨freq, other, j, a1, r1, a2, r2, rfl, hj, -, -, rfl⟩ |
    ⟨e, x, a, r, -, rfl, ⟨freq, other, rfl, hnone, rfl, rfl⟩ | ⟨-, p, rfl, rfl, rfl⟩⟩ := exec_cases h
  · exact .inl ⟨c, body, x, fifo, rest, hbody, rfl⟩
  · exact .inr (.inl ⟨freq, other, j, a1 ++ a2, r2, rfl, hj, emit_tune_eq_tunedTo j a1 a2 r1 r2 s⟩)
  · exact .inr (.inr (.inl ⟨freq, other, a, r, rfl, hnone, rfl⟩))
  · exact .inr (.inr (.inr ⟨x, p, a, r, rfl, rfl⟩))

/-- SETFREQ does not reply: it tuned to the index found, or found none and only signalled. -/
theorem exec_setFreq_next {freq : Half} {rest : PayloadRest} {s t : State} (h : exec (.setFreq freq rest) s = .next t) :
    (∃ j a r, chanIndex s.params freq = some j ∧ t = tunedTo j a r s) ∨
      ∃ a r, chanIndex s.params freq = none ∧ t = signalled .cmdProcessed codeSetFreq a r s := by
  obtain ⟨c, body, x, fifo, moves, hbody, -⟩ | ⟨freq', rest', j, a, r, ⟨⟩, hj, ht⟩ | ⟨freq', rest', a, r, ⟨⟩, hnone, ht⟩ |
    ⟨code, p, a, r, ⟨⟩, -⟩ := exec_next h
  · cases hbody
  · exact .inl ⟨j, a, r, hj, ht⟩
  · exact .inr ⟨a, r, hnone, ht⟩

/-- Settles O46: of the state's fields the two outcomes differ in the channel alone, which the lookup gives. -/
theorem setFreqFrame : Obligations.SetFreqFrame := by
  intro freq other s t h
  obtain ⟨j, a, r, hj, rfl⟩ | ⟨a, r, hnone, rfl⟩ := exec_setFreq_next h
  · refine ⟨rfl, rfl, fun _ _ => rfl, fun _ _ => rfl, rfl, rfl, rfl, rfl, ⟨_, rfl, rfl, rfl⟩, ⟨a, rfl⟩, fun hmem => ?_,
      fun _ => chanFreq_of_chanIndex hj⟩
    rw [chanIndex_eq_none_iff.2 hmem] at hj
    cases hj
  · refine ⟨rfl, rfl, fun _ _ => rfl, fun _ _ => rfl, rfl, rfl, rfl, rfl, ⟨_, rfl, rfl, rfl⟩, ⟨a, rfl⟩, fun _ => rfl,
      fun hmem => absurd hmem (chanIndex_eq_none_iff.1 hnone)⟩

/-- Settles O47: a signal writes neither the block nor the store. -/
theorem otherCodeFrame : Obligations.OtherCodeFrame := by
  intro code p s t h
  obtain ⟨a, r, -, rfl⟩ := diag_next h
  exact ⟨rfl, rfl, fun _ _ => rfl, fun _ _ => rfl, rfl, rfl, rfl, rfl, rfl, ⟨_, rfl, rfl, rfl⟩, a, rfl⟩

/-! ### The replying arms (O38, O39, O43, O45) -/

/-- The RANGE reply, written out: 5658, 5917 and 200 in their fields, and the checksum (30_encoding.md R68). -/
theorem finalizeBuffer_rangeBody : finalizeBuffer rangeBody =
    #v[0x0F, 0x72, 0x1A, 0x16, 0x1D, 0x17, 0xC8, 0x00, 0x00, 0x00, 0x00, 0x00, 0x00, 0x00, 0x9E, 0x00] := by
  decide

/-- Settles O38: the arm prepares one fixed body. -/
theorem rangeRepliesFixedBounds : Obligations.RangeRepliesFixedBounds := by
  intro p s x fifo rest henv
  rw [← finalizeBuffer_rangeBody]
  exact reply_of_env codeRange rangeBody henv

/-- A frame, written out (30_encoding.md R61, 41_checksum.md R100). -/
theorem frame_eq (code : Byte) (p : Payload) : frame code p =
    #v[headerByte, code, p[0], p[1], p[2], p[3], p[4], p[5], p[6], p[7], p[8], p[9], p[10], p[11],
      code + p[0] + p[1] + p[2] + p[3] + p[4] + p[5] + p[6] + p[7] + p[8] + p[9] + p[10] + p[11], trailerByte] := by
  have hsum : checksum (frameBody code p) =
      code + p[0] + p[1] + p[2] + p[3] + p[4] + p[5] + p[6] + p[7] + p[8] + p[9] + p[10] + p[11] :=
    checksum_eq (frameBody code p)
  rw [frame, finalizeBuffer, hsum]
  rfl

/-- Settles O43: the arm sends the frame of its code and the acknowledgement. -/
theorem setPowerAcknowledgesOnly : Obligations.SetPowerAcknowledgesOnly := by
  rintro p s _ x fifo rest rfl henv
  exact (reply_of_env codeSetPower _ henv).trans (congrArg (fun f => Host.Outcome.next (replied _ f x fifo rest s))
    (frame_eq codeSetPower s.params.sAckPayload))

/-- A reply arm extends the trace (00_scope.md R14). -/
theorem replied_trace (code : Byte) (f : Buffer) (x : Option Byte) (fifo : List Byte) (rest : List EnvMove) (s : State) :
    (replied code f x fifo rest s).trace =
      s.trace ++ (sendEvents s.params.drainDelay f ++ drainEvents x ++ [.diag .cmdProcessed code]) := by
  simp only [replied, List.append_assoc]

/-- What a reply arm leaves, under any environment: the finalized body in `txbuf`, the receiver, the store and the
parameters as they were. -/
theorem reply_frame {code : Byte} {body : Buffer} {s t : State} (h : reply code body s = .next t) :
    t.txbuf = finalizeBuffer body ∧
      t.rxState = s.rxState ∧ t.cursor = s.cursor ∧ (∀ (k : Nat) (h : k < 16), t.rxbuf[k] = s.rxbuf[k]) ∧
      t.busy = false ∧ t.passRunning = s.passRunning ∧ t.cfgChannel = s.cfgChannel ∧ t.cfgPower = s.cfgPower ∧
      t.params = s.params ∧ (∃ es, t.trace = s.trace ++ es) ∧ isValid t.txbuf = true := by
  obtain ⟨x, fifo, rest, -, rfl⟩ := reply_next h
  exact ⟨rfl, rfl, rfl, fun _ _ => rfl, rfl, rfl, rfl, rfl, rfl, ⟨_, replied_trace ..⟩,
    isValid_finalizeBuffer body⟩

/-- Settles O45: each of the three arms is a reply. -/
theorem replyArmsFrame : Obligations.ReplyArmsFrame := by
  intro p s t
  refine ⟨fun h => (reply_frame h).1, fun h => (reply_frame h).1, fun h => (reply_frame h).1, ?_⟩
  rintro (h | h | h)
  · exact (reply_frame h).2
  · exact (reply_frame h).2
  · exact (reply_frame h).2

/-! The fields of a STATUS reply.  A well-formed layout keeps them off each other, so each field is read back as it was
written, whatever is written after it; and FINALIZE comes after all of them, past the payload. -/

theorem memRead2_memWrite2_of_ne {off off' : HalfOffset} (h : (halfOffset off).val ≠ (halfOffset off').val) (buf : Buffer)
    (v : Half) : memRead2 (memWrite2 buf off' v) off = memRead2 buf off := by
  have heven := (halfOffset_aligned off).1
  have heven' := (halfOffset_aligned off').1
  rw [memRead2_eq, memRead2_eq, memWrite2_get_other _ _ _ _ h (by omega),
    memWrite2_get_other _ _ _ _ (by omega) (by omega)]

theorem memWrite1_get_of_ne {off : Fin 16} {k : Nat} (hk : k < 16) (h : k ≠ off.val) (buf : Buffer) (v : Byte) :
    (memWrite1 buf off v)[k] = buf[k] := by
  rw [memWrite1_get, if_neg h.symm]

theorem memRead2_memWrite1_of_ne {off : HalfOffset} {k : Fin 16} (hlo : (halfOffset off).val ≠ k.val)
    (hhi : (halfOffset off).val + 1 ≠ k.val) (buf : Buffer) (v : Byte) :
    memRead2 (memWrite1 buf k v) off = memRead2 buf off := by
  rw [memRead2_eq, memRead2_eq, memWrite1_get_of_ne _ hlo, memWrite1_get_of_ne _ hhi]

theorem finalizeBuffer_get_of_lt (f : Buffer) {k : Nat} (hk : k < 14) : (finalizeBuffer f)[k] = f[k] := by
  rw [finalizeBuffer_get, if_neg (by omega), if_neg (by omega)]

theorem memRead2_finalizeBuffer (f : Buffer) (off : HalfOffset) : memRead2 (finalizeBuffer f) off = memRead2 f off := by
  have hle := (halfOffset_aligned off).2.2
  rw [memRead2_eq, memRead2_eq, finalizeBuffer_get_of_lt f (by omega), finalizeBuffer_get_of_lt f (by omega)]

/-- The five writes of R113, in their order. -/
theorem statusBody_eq (l : VReplyLayout) (freq pwr : Half) : statusBody l freq pwr =
    memWrite2 (memWrite1 (memWrite1 (memWrite2 (memWrite2 (replyStart codeStatus) l.freq freq) l.setPower pwr)
      l.lock lockFlag) l.pit pitFlag) l.actualPower pwr := rfl

section

variable {l : VReplyLayout}

theorem layout_offset_bounds (h : l.wf = true) {k : Nat} (hk : k ∈ l.offsets) : 2 ≤ k ∧ k ≤ 13 := by
  simpa using List.all_eq_true.1 (Bool.and_eq_true_iff.1 h).1 k hk

theorem layout_offsets_nodup (h : l.wf = true) : l.offsets.Nodup := of_decide_eq_true (Bool.and_eq_true_iff.1 h).2

/-- A byte in no field is as REPLY_START left it. -/
theorem statusBody_get_of_not_mem {k : Nat} (hk : k < 16) (h : k ∉ l.offsets) (freq pwr : Half) :
    (statusBody l freq pwr)[k] = (replyStart codeStatus)[k] := by
  simp only [VReplyLayout.offsets, List.mem_cons, not_or] at h
  obtain ⟨hfreq, hfreq', hset, hset', hlock, hpit, hactual, hactual', -⟩ := h
  rw [statusBody_eq, memWrite2_get_other _ _ _ hk hactual hactual', memWrite1_get_of_ne hk hpit,
    memWrite1_get_of_ne hk hlock, memWrite2_get_other _ _ _ hk hset hset', memWrite2_get_other _ _ _ hk hfreq hfreq']

/-- Every field of a STATUS reply is read back as it was written (30_encoding.md R69). -/
theorem statusBody_fields (h : l.wf = true) (freq pwr : Half) :
    memRead2 (statusBody l freq pwr) l.freq = freq ∧ memRead2 (statusBody l freq pwr) l.setPower = pwr ∧
      memRead2 (statusBody l freq pwr) l.actualPower = pwr ∧ (statusBody l freq pwr)[l.lock.val] = lockFlag ∧
      (statusBody l freq pwr)[l.pit.val] = pitFlag := by
  have hdistinct := layout_offsets_nodup h
  simp only [VReplyLayout.offsets, List.nodup_cons, List.mem_cons, not_or] at hdistinct
  rw [statusBody_eq]
  refine ⟨?_, ?_, memRead2_memWrite2 _ _ _, ?_, ?_⟩
  · rw [memRead2_memWrite2_of_ne (by omega), memRead2_memWrite1_of_ne (by omega) (by omega),
      memRead2_memWrite1_of_ne (by omega) (by omega), memRead2_memWrite2_of_ne (by omega), memRead2_memWrite2]
  · rw [memRead2_memWrite2_of_ne (by omega), memRead2_memWrite1_of_ne (by omega) (by omega),
      memRead2_memWrite1_of_ne (by omega) (by omega), memRead2_memWrite2]
  · rw [memWrite2_get_other _ _ _ _ (by omega) (by omega), memWrite1_get_of_ne _ (by omega), memWrite1_get, if_pos rfl]
  · rw [memWrite2_get_other _ _ _ _ (by omega) (by omega), memWrite1_get, if_pos rfl]

end

/-- Settles O39: the frame is FINALIZE of the body, whose fields are read back and whose other bytes are REPLY_START's. -/
theorem statusReportsFrequencyAndPower : Obligations.StatusReportsFrequencyAndPower := by
  intro p s hwf
  obtain ⟨hfreq, hset, hactual, hlock, hpit⟩ :=
    statusBody_fields hwf (chanFreq s.params s.cfgChannel) (powVal s.params s.cfgPower)
  have hother {k : Nat} (hk : k < 14) (hmem : k ∉ s.params.vReplyLayout.offsets) :
      (finalizeBuffer (statusBody s.params.vReplyLayout (chanFreq s.params s.cfgChannel) (powVal s.params s.cfgPower)))[k] =
        (replyStart codeStatus)[k] := by
    rw [finalizeBuffer_get_of_lt _ hk, statusBody_get_of_not_mem _ hmem]
  refine ⟨_, ?_, ?_, isValid_finalizeBuffer _, ?_, ?_, ?_, ?_, ?_, fun k hk hpayload hmem => ?_,
    fun x fifo rest henv => exec_status_of_env p henv⟩
  · exact hother (by decide) fun hmem => absurd (layout_offset_bounds hwf hmem).1 (by decide)
  · exact hother (by decide) fun hmem => absurd (layout_offset_bounds hwf hmem).1 (by decide)
  · rw [memRead2_finalizeBuffer, hfreq]
  · rw [memRead2_finalizeBuffer, hset]
  · rw [memRead2_finalizeBuffer, hactual]
  · have hbound := (layout_offset_bounds hwf (k := s.params.vReplyLayout.lock) (by simp [VReplyLayout.offsets])).2
    exact (finalizeBuffer_get_of_lt _ (by omega)).trans hlock
  · have hbound := (layout_offset_bounds hwf (k := s.params.vReplyLayout.pit) (by simp [VReplyLayout.offsets])).2
    exact (finalizeBuffer_get_of_lt _ (by omega)).trans hpit
  · rw [hother hk hmem, replyStart_get, if_neg (by omega), if_neg (by omega)]
    rfl

/-! ### What a dispatch shows (O48, O49) -/

/-- The result event of a dispatch and its argument, by the instruction alone (42_dispatch.md R120). -/
def resultOf : Instr → DiagEvent × Byte
  | .range _ => (.cmdProcessed, codeRange)
  | .status _ => (.cmdProcessed, codeStatus)
  | .setFreq _ _ => (.cmdProcessed, codeSetFreq)
  | .setPower _ => (.cmdProcessed, codeSetPower)
  | .other code _ => (.cmdIgnored, code)

theorem resultOf_of_replyBody {i : Instr} {s : State} {c : Byte} {body : Buffer} (h : replyBodyOf i s = some (c, body)) :
    resultOf i = (.cmdProcessed, c) := by
  cases i <;> cases h <;> rfl

theorem diag_not_mem_sendEvents (d : Nat) (f : Buffer) (e : DiagEvent) (x : Byte) : .diag e x ∉ sendEvents d f := by
  simp [sendEvents]

theorem diag_not_mem_drainEvents (y : Option Byte) (e : DiagEvent) (x : Byte) : .diag e x ∉ drainEvents y := by
  cases y <;> simp [drainEvents]

/-- The events of a dispatch: what its arm does, then the one result event. -/
theorem exec_trace {i : Instr} {s t : State} (h : exec i s = .next t) :
    ∃ es, t.trace = s.trace ++ (es ++ [.diag (resultOf i).1 (resultOf i).2]) ∧
      ((∃ d f x, es = sendEvents d f ++ drainEvents x) ∨ (∃ j, es = [.cfgChannel j, .applyChannel j]) ∨ es = []) := by
  obtain ⟨c, body, x, fifo, rest, hbody, rfl⟩ | ⟨freq, rest, j, a, r, rfl, -, rfl⟩ | ⟨freq, rest, a, r, rfl, -, rfl⟩ |
    ⟨code, p, a, r, rfl, rfl⟩ := exec_next h
  · exact ⟨_, by rw [replied_trace, resultOf_of_replyBody hbody], .inl ⟨_, _, x, rfl⟩⟩
  · exact ⟨[.cfgChannel j, .applyChannel j], rfl, .inr (.inl ⟨j, rfl⟩)⟩
  · exact ⟨[], rfl, .inr (.inr rfl)⟩
  · exact ⟨[], rfl, .inr (.inr rfl)⟩

/-- The result of a decoded frame, by its command byte (42_dispatch.md R110, R120). -/
theorem resultOf_instrOf (f : Buffer) : resultOf (instrOf f) =
    (if f[1] ∈ ([0x72, 0x76, 0x46, 0x73] : List Byte) then .cmdProcessed else .cmdIgnored, f[1]) := by
  obtain ⟨hcode, hinstr⟩ | ⟨hcode, hinstr⟩ | ⟨hcode, hinstr⟩ | ⟨hcode, hinstr⟩ | ⟨hwf, hinstr⟩ := instrOf_cases f <;>
    rw [hinstr]
  · rw [hcode]; rfl
  · rw [hcode]; rfl
  · rw [hcode]; rfl
  · rw [hcode]; rfl
  · have hcode : f[1] ∉ commandCodes := by simpa [Instr.wf] using hwf
    exact congrArg (·, f[1]) (if_neg hcode).symm

/-- Settles O48: no event of an arm before its result is a diagnostic. -/
theorem dispatchSignalsOnceAtEnd : Obligations.DispatchSignalsOnceAtEnd := by
  intro f i s t hdecode h
  obtain ⟨-, rfl⟩ := decodeFrame_ok hdecode
  obtain ⟨es, htrace, hes⟩ := exec_trace h
  rw [resultOf_instrOf] at htrace
  refine ⟨es, by rw [htrace, List.append_assoc], fun e x hmem => ?_⟩
  obtain ⟨d, g, y, rfl⟩ | ⟨j, rfl⟩ | rfl := hes
  · rcases List.mem_append.1 hmem with hsend | hdrain
    · exact diag_not_mem_sendEvents d g e x hsend
    · exact diag_not_mem_drainEvents y e x hdrain
  · simp at hmem
  · simp at hmem

theorem applied_sendEvents (d : Nat) (f : Buffer) : (sendEvents d f).filterMap applyPort = [] := by
  have hwrites : (f.toList.map Event.writeByte).filterMap applyPort = [] := by
    rw [List.filterMap_map]
    exact List.filterMap_eq_nil_iff.2 fun _ _ => rfl
  rw [sendEvents, List.filterMap_append, List.filterMap_append, hwrites]
  rfl

theorem applied_drainEvents (x : Option Byte) : (drainEvents x).filterMap applyPort = [] := by
  cases x <;> rfl

/-- Settles O49: a reply sends one frame and drains at most one byte, and the other arms do neither. -/
theorem dispatchRepliesOrTunesAtMostOnce : Obligations.DispatchRepliesOrTunesAtMostOnce := by
  intro i s t h
  obtain ⟨es, htrace, hes⟩ := exec_trace h
  refine ⟨_, htrace, ?_⟩
  obtain ⟨d, f, x, rfl⟩ | ⟨j, rfl⟩ | rfl := hes
  · refine .inl ⟨by simp, ?_, ?_⟩
    · rw [List.filterMap_append, List.filterMap_append, applied_sendEvents, applied_drainEvents]
      rfl
    · cases x <;> simp
  · exact .inr ⟨rfl, le_rfl, rfl⟩
  · exact .inr ⟨rfl, Nat.zero_le 1, rfl⟩

/-! ### The configuration store during a pass (O19)

Of all that a step of a pass does, only SETFREQ's match writes the store; the rest of the step puts its events before or
after, or moves the receiver. -/

theorem exec_cfgPower {i : Instr} {s t : State} (h : exec i s = .next t) : t.cfgPower = s.cfgPower := by
  obtain ⟨c, body, x, fifo, rest, -, rfl⟩ | ⟨freq, rest, j, a, r, -, -, rfl⟩ | ⟨freq, rest, a, r, -, -, rfl⟩ |
    ⟨code, p, a, r, -, rfl⟩ := exec_next h <;> rfl

theorem completeFrame_cfgPower {s t : State} (h : completeFrame s = .next t) : t.cfgPower = s.cfgPower := by
  obtain ⟨i, -, hexec⟩ | ⟨e, a, r, -, -, rfl⟩ := completeFrame_cases h
  · exact exec_cfgPower hexec
  · rfl

theorem rxStep_cfgPower {b : Byte} {s t : State} (h : rxStep b s = .next t) : t.cfgPower = s.cfgPower := by
  obtain ⟨r', -, rfl, -⟩ | ⟨e, a, r, -, rfl, -⟩ | ⟨u, -, -, hcomplete, rfl⟩ := rxStep_cases h
  · rfl
  · rfl
  · exact completeFrame_cfgPower (s := appendByte b s) (t := u) hcomplete

theorem passStep_cfgPower {s t : State} (h : passStep s = .next t) : t.cfgPower = s.cfgPower := by
  obtain ⟨a, r, -, -, rfl⟩ | ⟨a1, r1, a2, r2, b, q, -, -, -, hstep⟩ := passStep_cases h
  · rfl
  · exact rxStep_cfgPower (s := fetched b (q ++ a2) r2 s) hstep

/-- From `s` to `t` the channel was left alone, or the frame `f` is a SETFREQ frame with a match, whose index was written
and the driver called with it. -/
def ChannelKeptOrTuned (f : Buffer) (s t : State) : Prop :=
  t.cfgChannel = s.cfgChannel ∨
    ∃ freq rest i, decodeFrame f = .ok (.setFreq freq rest) ∧ chanIndex s.params freq = some i ∧ t.cfgChannel = i ∧
      t.trace = s.trace ++ [.cfgChannel i, .applyChannel i] ++ [.diag .cmdProcessed codeSetFreq]

theorem completeFrame_channelKeptOrTuned {s t : State} (h : completeFrame s = .next t) :
    ChannelKeptOrTuned s.rxbuf s t := by
  obtain ⟨i, hi, hexec⟩ | ⟨e, a, r, -, -, rfl⟩ := completeFrame_cases h
  · obtain ⟨c, body, x, fifo, rest, -, rfl⟩ | ⟨freq, rest, j, a, r, rfl, hj, rfl⟩ | ⟨freq, rest, a, r, -, -, rfl⟩ |
      ⟨code, p, a, r, -, rfl⟩ := exec_next hexec
    · exact .inl rfl
    · exact .inr ⟨freq, rest, j, hi, hj, rfl, by simp [tunedTo]⟩
    · exact .inl rfl
    · exact .inl rfl
  · exact .inl rfl

/-- A receiver step writes the channel only with the byte that completes a frame (40_receiver.md R87). -/
theorem rxStep_channelKeptOrTuned {b : Byte} {s t : State} (h : rxStep b s = .next t) :
    t.cfgChannel = s.cfgChannel ∨
      s.rxState = .accumulatingData ∧ ChannelKeptOrTuned (s.rxbuf.set 15 b) s t := by
  obtain ⟨r', -, rfl, -⟩ | ⟨e, a, r, -, rfl, -⟩ | ⟨u, hstate, hc, hcomplete, rfl⟩ := rxStep_cases h
  · exact .inl rfl
  · exact .inl rfl
  · rw [appendByte_at_fifteen b hc] at hcomplete
    exact .inr ⟨hstate, completeFrame_channelKeptOrTuned hcomplete⟩

theorem take_set_last (f : Buffer) (b : Byte) : (f.set 15 b).toList.take 15 = f.toList.take 15 := by
  rw [Vector.toList_set, List.take_set_of_le le_rfl]

/-- Settles O19: in a pass the store is written by the dispatch of the frame that the step's byte completes, if at all. -/
theorem configurationWrittenOnlyByMatch : Obligations.ConfigurationWrittenOnlyByMatch := by
  intro s t hrun h
  refine ⟨passStep_cfgPower (step_running hrun ▸ h), step_params h, ?_⟩
  rw [step_running hrun] at h
  obtain ⟨a, r, -, -, rfl⟩ | ⟨a1, r1, a2, r2, b, q, -, -, -, hstep⟩ := passStep_cases h
  · exact .inl rfl
  · obtain hkept | ⟨hstate, hkept | ⟨freq, rest, i, hdecode, hi, hwritten, htrace⟩⟩ := rxStep_channelKeptOrTuned hstep
    · exact .inl hkept
    · exact .inl hkept
    · exact .inr ⟨s.rxbuf.set 15 b, freq, rest, i, hstate, take_set_last s.rxbuf b, hdecode, hi, hwritten,
        [.avail true, .readByte b], [.diag .cmdProcessed codeSetFreq], htrace⟩

end Sys2Proof.Machine

namespace Sys2Proof.Machine

/-! ### The transmit sequence and its drain read (O36, O37)

What `transmit` and `drainRead` do while the environment keeps its duties is `transmit_of_env`, `drainRead_none` and
`drainRead_some`.  What is added here is that FINALIZE has one result, and that a duty broken in one of the drain read's
two turns is its fault. -/

/-- FINALIZE byte by byte determines the frame (41_checksum.md R104). -/
theorem finalizeBuffer_eq_of_bytes {f g : Buffer} (hbody : ∀ (k : Nat) (hk : k < 14), f[k] = g[k])
    (hsum : f[14] = checksum g) (htrailer : f[15] = trailerByte) : finalizeBuffer g = f := by
  have hchecksum : checksum f = checksum g := checksum_congr fun k _ _ hlast => hbody k (by omega)
  have hvalid : isValid f = true := (isValid_iff f).2 ⟨hsum.trans hchecksum.symm, htrailer⟩
  exact finalizeBuffer_eq_of_valid hvalid fun k hk => (hbody k hk).symm

/-- Settles O36: the bytes named are those of FINALIZE, and the sequence runs as the environment lets it. -/
theorem transmitSendsThenDrainsOnce : Obligations.TransmitSendsThenDrainsOnce := by
  intro s f x fifo rest hbody hsum htrailer henv
  obtain rfl := finalizeBuffer_eq_of_bytes hbody hsum htrailer
  exact transmit_of_env henv

theorem avail_of_error {s : State} {f : Fault} (h : takeTurn s.script = .error f) (k : Bool → State → Result) :
    avail s k = .fault f := by
  rw [avail, envTurn_of_error h, andThen_fault]

theorem readByte_of_error {s : State} {f : Fault} (h : takeTurn s.script = .error f) (k : Byte → State → Result) :
    readByte s k = .fault f := by
  rw [readByte, envTurn_of_error h, andThen_fault]

/-- A duty broken before the drain read's `Avail` (60_exceptions.md R148). -/
theorem drainRead_of_error {s : State} {f : Fault} (h : takeTurn s.script = .error f) : drainRead s = .fault f :=
  avail_of_error h _

/-- A duty broken before the drain read's `ReadByte`, which comes only when a byte waits (60_exceptions.md R148). -/
theorem drainRead_of_read_error {s : State} {a q : List Byte} {r : List EnvMove} {x : Byte} {f : Fault}
    (h : takeTurn s.script = .ok (a, r)) (hq : s.rxFifo ++ a = x :: q) (hread : takeTurn r = .error f) :
    drainRead s = .fault f := by
  simp only [drainRead, avail_of_ok h, hq, List.isEmpty_cons, Bool.not_false, if_true]
  exact readByte_of_error hread _

/-- Settles O37: the turn before the `Avail` goes well or not, and so does the one before the `ReadByte` of a waiting
byte. -/
theorem drainReadDiscardsOldestByte : Obligations.DrainReadDiscardsOldestByte := by
  intro s
  simp only [takeTurns_one]
  refine ⟨fun f => drainRead_of_error, fun a r havail => ⟨drainRead_none havail, fun x q hq => ⟨?_, ?_⟩⟩⟩
  · exact fun f hread => drainRead_of_read_error havail hq hread
  · exact fun a' r' hread => drainRead_some havail hq hread

end Sys2Proof.Machine

namespace Sys2Proof.Machine

/-! ### Stops and broken duties (O32 to O35, O50)

`Uses n s r` says how an operation can end within its `n` turns: it goes on, or it faults with those turns.  So a stop of an
operation is a broken duty, and turns without one let it complete.  Between passes every move is a liberty and a step cannot
stop at all.  The converse, that a duty broken in a turn which an operation takes is its fault, is followed along the turns:
a step's `Avail`, its `ReadByte`, and then the one signal of a byte class or the turns of a dispatch. -/

/-! A step between passes (60_exceptions.md R147). -/

theorem idleStep_of_script_nil {s : State} (h : s.script = []) : idleStep s = .next s := by
  simp only [idleStep, h]

theorem idleStep_of_script_cons {s : State} {m : EnvMove} {rest : List EnvMove} (h : s.script = m :: rest) :
    idleStep s = .next (applyIdleMove m { s with script := rest }) := by
  simp only [idleStep, h]

theorem idleStep_completes (s : State) : ∃ t, idleStep s = .next t := by
  cases hscript : s.script with
  | nil => exact ⟨_, idleStep_of_script_nil hscript⟩
  | cons m rest => exact ⟨_, idleStep_of_script_cons hscript⟩

/-- Settles O32: each move of the environment has the effect `applyIdleMove` names. -/
theorem idleStepsAreEnvironmentMoves : Obligations.IdleStepsAreEnvironmentMoves := by
  intro s hidle
  rw [step_idle hidle]
  exact ⟨idleStep_of_script_nil, fun _ _ => idleStep_of_script_cons, fun _ => idleStep_of_script_cons,
    fun _ _ => idleStep_of_script_cons, fun _ _ => idleStep_of_script_cons, fun _ => idleStep_of_script_cons⟩

/-! What the turns an operation takes say of its outcome. -/

section

variable {n : Nat} {s : State} {r : Result}

theorem Uses.ne_refused (h : Uses n s r) (x : Refusal) : r ≠ .refused x := by
  obtain ⟨t, k, a, -, rfl, -⟩ | ⟨f, rfl, -⟩ := h
  · exact nofun
  · exact nofun

theorem Uses.turns_of_fault {f : Fault} (h : Uses n s r) (hr : r = .fault f) : takeTurns n s.script = .error f := by
  obtain ⟨t, k, a, -, rfl, -⟩ | ⟨g, rfl, hturns⟩ := h
  · cases hr
  · cases hr
    exact hturns

theorem Uses.completes {p : List Byte × List EnvMove} (h : Uses n s r) (hp : takeTurns n s.script = .ok p) :
    ∃ t, r = .next t := by
  obtain ⟨t, k, a, -, hr, -⟩ | ⟨f, -, hturns⟩ := h
  · exact ⟨t, hr⟩
  · rw [hp] at hturns
    cases hturns

end

/-- Settles O33: an iteration of the running pass takes at most 22 turns, and a step between passes does not stop. -/
theorem onlyBrokenDutiesStopAStep : Obligations.OnlyBrokenDutiesStopAStep := by
  intro s
  cases hrun : s.passRunning with
  | true =>
    rw [step_running hrun]
    refine ⟨(uses_passStep s).ne_refused, fun f hfault => ?_⟩
    have hturns := (uses_passStep s).turns_of_fault hfault
    exact ⟨rfl, hturns, takeTurns_fault hturns⟩
  | false =>
    obtain ⟨t, ht⟩ := idleStep_completes s
    rw [step_idle hrun, ht]
    exact ⟨nofun, nofun⟩

/-- Settles O34: an instruction takes at most 20 turns and an iteration of the running pass at most 22. -/
theorem dutifulEnvironmentNeverStops : Obligations.DutifulEnvironmentNeverStops := by
  refine ⟨fun i s p hp => (uses_exec i s).completes hp, fun s p hp => ?_⟩
  cases hrun : s.passRunning with
  | true =>
    rw [step_running hrun]
    exact (uses_passStep s).completes hp
  | false =>
    rw [step_idle hrun]
    exact idleStep_completes s

/-! A duty broken in a turn of a dispatch (60_exceptions.md R148). -/

section

variable {s : State} {f : Fault}

theorem diag_of_error (e : DiagEvent) (x : Byte) (h : takeTurn s.script = .error f) : diag e x s = .fault f := by
  rw [diag, envTurn_of_error h, andThen_fault]

theorem applyChannel_of_error (i : Byte) (h : takeTurn s.script = .error f) : applyChannel i s = .fault f := by
  rw [applyChannel, envTurn_of_error h, andThen_fault]

/-- SETFREQ with a match: the duty is broken before the driver call, or after it and before the event. -/
theorem exec_setFreq_of_match_of_error {freq : Half} {i : Byte} (rest : PayloadRest)
    (hi : chanIndex s.params freq = some i) (h : takeTurns 2 s.script = .error f) :
    exec (.setFreq freq rest) s = .fault f := by
  simp only [exec, execSetFreq, hi]
  obtain hcall | ⟨a, r, hcall, hevent⟩ := takeTurns_error_succ.1 h
  · rw [applyChannel_of_error (s := writeCfgChannel i s) i hcall, andThen_fault]
  · rw [takeTurns_one] at hevent
    rw [applyChannel_of_ok (s := writeCfgChannel i s) i hcall, andThen_next]
    exact diag_of_error _ _ hevent

end

/-- Settles O50: the replying arms share one reply, SETFREQ takes two turns or one as the lookup finds an index or not, and
OTHER takes one. -/
theorem brokenDutyDuringDispatchFaults : Obligations.BrokenDutyDuringDispatchFaults := by
  refine ⟨fun p s f h => ⟨reply_of_broken _ _ h, reply_of_broken _ _ h, reply_of_broken _ _ h⟩,
    fun freq other s f => ⟨fun hmem h => ?_, fun hmem h => ?_⟩, fun code p s f h => ?_⟩
  · have hfound : chanIndex s.params freq ≠ none := fun hnone => chanIndex_eq_none_iff.1 hnone hmem
    obtain ⟨i, hi⟩ := Option.ne_none_iff_exists'.1 hfound
    exact exec_setFreq_of_match_of_error other hi h
  · rw [exec_setFreq_of_no_match other (chanIndex_eq_none_iff.2 hmem)]
    exact diag_of_error _ _ (takeTurns_one s.script ▸ h)
  · exact diag_of_error _ _ (takeTurns_one s.script ▸ h)

/-! A duty broken in a turn of a step (60_exceptions.md R148). -/

section

variable {s : State} {f : Fault} {b : Byte}

theorem readByte_of_empty {a : List Byte} {r : List EnvMove} (h : takeTurn s.script = .ok (a, r))
    (hq : s.rxFifo ++ a = []) (k : Byte → State → Result) : readByte s k = .fault .readEmptyFifo := by
  simp only [readByte, envTurn_of_ok h, andThen_next, arrived_rxFifo, hq]

theorem passStep_of_error (h : takeTurn s.script = .error f) : passStep s = .fault f :=
  avail_of_error h _

/-- A duty broken before the step's `ReadByte`, which comes only when a byte waits. -/
theorem passStep_of_read_error {a q : List Byte} {r : List EnvMove} (h : takeTurn s.script = .ok (a, r))
    (hq : s.rxFifo ++ a = b :: q) (hread : takeTurn r = .error f) : passStep s = .fault f := by
  simp only [passStep, avail_of_ok h, hq, List.isEmpty_cons, Bool.not_false, if_true]
  exact readByte_of_error hread _

/-- The byte classes whose one turn stands before a diagnostic: the four that resynchronise at once, and the completion of
an invalid frame (40_receiver.md R83, R85, R87, R88, R89). -/
def SignalsOnly (b : Byte) (s : State) : Prop :=
  (s.rxState = .awaitingHeader ∧ (b ≠ 0x0F ∨ s.cursor = 15)) ∨
    (s.rxState = .awaitingCode ∧ (codeAccepted s.params b = false ∨ s.cursor = 15)) ∨
    (s.rxState = .accumulatingData ∧ s.cursor = 15 ∧ isValid (s.rxbuf.set 15 b) = false) ∨ s.rxState = .illegal

/-- A duty broken before the diagnostic of such a byte. -/
theorem rxStep_of_error (hclass : SignalsOnly b s) (h : takeTurn s.script = .error f) : rxStep b s = .fault f := by
  have hresync (e : DiagEvent) : diag e b (resync (appendByte b s)) = .fault f := diag_of_error e b h
  obtain ⟨hstate, hbyte⟩ | ⟨hstate, hbyte⟩ | ⟨hstate, hc, hinvalid⟩ | hstate := hclass
  · rw [rxStep_awaitingHeader b hstate]
    split_ifs with hheader hfull
    · exact hresync .framingLoss
    · exact hresync .recovered
    · exact absurd hbyte (not_or_intro hheader hfull)
  · rw [rxStep_awaitingCode b hstate]
    split_ifs with hcode hfull
    · exact hresync .codeRejected
    · exact hresync .recovered
    · exact absurd hbyte (not_or_intro hcode hfull)
  · rw [rxStep_of_last b hstate hc, appendByte_at_fifteen b hc, completeFrame_of_invalid hinvalid,
      diag_of_error (s := { s with rxbuf := s.rxbuf.set 15 b }) _ _ h, andThen_fault]
  · rw [rxStep_illegal b hstate]
    exact hresync .recovered

end

/-- Settles O35: the fault of a turn is the step's, turn by turn. -/
theorem brokenDutiesFault : Obligations.BrokenDutiesFault := by
  refine ⟨fun s k r hempty hturn => ?_, fun moves bytes v rest => ?_, fun s f hrun hturn => ?_,
    fun s f a1 q r1 b hrun h1 hq => ⟨fun hread => ?_, fun a2 r2 h2 => ⟨fun hclass hdiag => ?_, ?_⟩⟩⟩
  · rw [takeTurns_one] at hturn
    exact readByte_of_empty hturn (by simp [hempty]) k
  · simp only [takeTurns_one]
    refine ⟨?_, ?_, ?_⟩ <;> rintro rfl <;> exact takeTurn_arrive_error bytes rfl
  · rw [takeTurns_one] at hturn
    rw [step_running hrun, passStep_of_error hturn]
  · rw [takeTurns_one] at h1 hread
    rw [step_running hrun, passStep_of_read_error h1 hq hread]
  · rw [takeTurns_one] at hdiag
    rw [step_of_byte hrun h1 hq h2]
    exact rxStep_of_error (s := fetched b (q ++ a2) r2 s) hclass hdiag
  · intro i hstate hc hi hexec
    obtain ⟨-, hdispatch⟩ := stepRunsDecodedInstruction s a1 a2 q r1 r2 b hrun h1 hq h2
    rw [hdispatch i hstate hc hi, hexec, andThen_fault]

end Sys2Proof.Machine

namespace Sys2Proof.Machine

/-! ### Padding without a header byte (O28)

Once the receiver awaits a header at cursor 0, padding keeps it there: every byte is noise. Until then every byte that does
not resynchronise advances the cursor, which sixteen of them cannot do. -/

/-- Awaiting a header at cursor 0, where every resynchronisation leaves the receiver (40_receiver.md R83 to R89). -/
def Resynced (s : State) : Prop := s.rxState = .awaitingHeader ∧ s.cursor = 0

/-- A byte that is no header ends with the receiver awaiting a header at cursor 0 whenever it finds it awaiting one. -/
theorem rxStep_noise_resynced {b : Byte} {s t : State} (hstate : s.rxState = .awaitingHeader) (hb : b ≠ headerByte)
    (h : rxStep b s = .next t) : Resynced t := by
  rw [rxStep_awaitingHeader b hstate, if_pos hb, onNoise] at h
  obtain ⟨a, r, -, rfl⟩ := diag_next h
  exact ⟨rfl, rfl⟩

theorem feed_padding_keeps_resynced {bs : List Byte} {s t : State} (hpad : ∀ b ∈ bs, b ≠ headerByte)
    (hs : Resynced s) (h : feed bs s = .next t) : Resynced t := by
  induction bs generalizing s with
  | nil =>
    obtain rfl : s = t := by simpa [feed] using h
    exact hs
  | cons b bs ih =>
    obtain ⟨hb, hrest⟩ := List.forall_mem_cons.1 hpad
    obtain ⟨v, hstep, hfeed⟩ := andThen_eq_next.1 h
    exact ih hrest (rxStep_noise_resynced hs.1 hb hstep) hfeed

/-- The first resynchronisation of a padding lasts to its end; without one, every byte advances the cursor. -/
theorem feed_padding_resyncs_or_advances {bs : List Byte} {s t : State} (hpad : ∀ b ∈ bs, b ≠ headerByte)
    (h : feed bs s = .next t) : Resynced t ∨ t.cursor.toNat = s.cursor.toNat + bs.length := by
  induction bs generalizing s with
  | nil =>
    obtain rfl : s = t := by simpa [feed] using h
    exact .inr rfl
  | cons b bs ih =>
    obtain ⟨-, hrest⟩ := List.forall_mem_cons.1 hpad
    obtain ⟨v, hstep, hfeed⟩ := andThen_eq_next.1 h
    obtain hresync | hadvance := rxStep_resyncs_or_advances hstep
    · exact .inl (feed_padding_keeps_resynced hrest hresync hfeed)
    · refine (ih hrest hfeed).imp_right fun hcursor => ?_
      rw [hcursor, hadvance, List.length_cons]
      omega

/-- Settles O28: sixteen bytes that all advance the cursor would take it past 15, so one of them resynchronises the
receiver, and the padding after it keeps it so. -/
theorem paddingForcesResynchronization : Obligations.PaddingForcesResynchronization := by
  intro s t bs hlen hpad h
  obtain hresync | hcursor := feed_padding_resyncs_or_advances hpad h
  · exact hresync
  · have hlt := t.cursor.isLt
    omega

end Sys2Proof.Machine
